-- ==== Sys2Proof/Word.lean ====
section
/-! DEFINITION. Sys2Proof/Word.lean: the two widths of the machine (spec/00_scope.md R5, R6).
`Byte` is XLEN_DATA (A, X, Y, SP and a memory cell); `Word` is XLEN_ADDR (PC and a memory address).
Their `+` and `-` are the spec's modular `+8`, `-8`, `+16`, `-16` (R7). -/

namespace Sys2Proof

/-- An 8-bit value: A, X, Y, SP, one memory cell, one instruction byte (R5 `XLEN_DATA`). -/
abbrev Byte := BitVec 8

/-- A 16-bit value: PC or a memory address (R5 `XLEN_ADDR`). -/
abbrev Word := BitVec 16

end Sys2Proof
end

