-- ==== Sys2Proof/Config.lean ====
section
/-! DEFINITION. Sys2Proof/Config.lean: the implementation parameters of spec/00_scope.md R5.
Every parameter has a value in the spec; no value of this machine is left free (spec/93_implementation_defined.md,
closing paragraph of its section 1), so this file holds no opaque constant. -/

namespace Sys2Proof.Config

/-- `RESET_PC`: the literal address execution starts at, no vector (R5, R40, R211).
DEDUCED: the spec's decision D1, settled by the source's tests (notes/assumptions/13.md). -/
def resetPc : Word := 0xFFFC

/-- `RESET_SP` (R5, R40). -/
def resetSp : Byte := 0xFE

/-- `STACK_PAGE`: base address of the stack page (R5, R24, R162).
PRESUMED: the spec takes page 1 from general knowledge by its decision D2 (notes/assumptions/1.md). -/
def stackPage : Word := 0x0100

/-- `MEM_SIZE`: the number of byte cells, addresses 0x0000 to 0xFFFF (R5, R37). -/
def memSize : Nat := 65536

/-- What every cell holds after the memory reset, so what an unlisted address reads as (R37, R56). -/
def resetByte : Byte := 0x00

/-- `COST_BYTE_ACCESS`: cycles charged per byte the engine reads or writes (R5, R62; notes/assumptions/11.md). -/
def costByteAccess : Nat := 1

end Sys2Proof.Config
end

