-- ==== Sys2Proof/Machine/State.lean ====
section
/-! DEFINITION. Sys2Proof/Machine/State.lean: the whole state of the machine (spec/10_state.md R20), its value
after reset (R40), and the reasons a step or a host operation can stop. State is plain data. -/

namespace Sys2Proof.Machine

/-- The eight status flags, each one bit of state of its own (R26 to R34). -/
structure Flags where
  /-- `P.C`, carry (R27) -/
  c : Bool
  /-- `P.Z`, zero (R28) -/
  z : Bool
  /-- `P.I`, interrupt-disable; masks nothing, the machine has no interrupt (R29, R192) -/
  i : Bool
  /-- `P.D`, decimal (R30) -/
  d : Bool
  /-- `P.B`, break (R31) -/
  b : Bool
  /-- `P.U`, the reserved bit: a real bit that holds 0 after reset (R32) -/
  u : Bool
  /-- `P.V`, overflow (R33) -/
  v : Bool
  /-- `P.N`, negative (R34) -/
  n : Bool
  deriving DecidableEq, Repr

/-- The engine's micro-state `PHASE` (R38, R111). DESIGN CHOICE, safe: kept in State, though R38 lets a model leave it out
(notes/assumptions/8.md). -/
inductive Phase where
  | fetchingOpcode
  | resolvingAddress
  | executingMutation
  deriving DecidableEq, Repr

/-- One diagnostic event `Unimplemented(addr, op)` (R176, R190): the address the opcode was fetched from and the byte. -/
structure Diagnostic where
  addr : Word
  op : Byte
  deriving DecidableEq, Repr

/-- The memory: (address, byte) pairs, addresses rising, listing no cell that holds what an unlisted address reads as.
`Memory.wf` (Machine/Ops.lean) is that form (notes/assumptions/9.md). -/
abbrev Memory := List Host.Cell

/-- The state of the machine: the tuple of R20, and one field of the model's own, `diag`, the engine's diagnostic output. -/
structure State where
  /-- accumulator (R21) -/
  a : Byte
  /-- index register X (R22) -/
  x : Byte
  /-- index register Y (R23) -/
  y : Byte
  /-- stack pointer, an offset into the stack page (R24) -/
  sp : Byte
  /-- program counter (R25) -/
  pc : Word
  /-- the status flags (R26) -/
  flags : Flags
  /-- `CYC`, the signed cycle counter: the remaining budget (R36); unbounded, as R36 allows (notes/assumptions/3.md) -/
  cyc : Int
  /-- the 64 KiB memory (R37) -/
  mem : Memory
  /-- `PHASE`, always `fetchingOpcode` between instructions (R38) -/
  phase : Phase
  /-- MODEL'S OWN: the diagnostic output since reset, oldest first (R176). The spec calls the events outputs and not
  state (R39); the field records them and no step reads it. DESIGN CHOICE, safe (notes/assumptions/4.md). -/
  diag : List Diagnostic
  deriving DecidableEq, Repr

/-- Reasons a step stops with a fault: there are none. Every step yields a next state (R9), memory has no failure mode
(R51, R61), and the machine has no trapping exception (R191; notes/assumptions/12.md). -/
inductive Fault where
  deriving DecidableEq, Repr

/-- Reasons the model has no meaning for an operation. No instruction raises one: a step is never refused (R9). -/
inductive Refusal where
  /-- Raised by an arm of `exec` whose instruction has no meaning yet, by its mnemonic. No arm raises it. Safe: the model stops. -/
  | notModelled (mnemonic : String)
  /-- Raised by the host's word operations at address 0xFFFF only, which the spec refuses (R55, R177). Safe: the model stops. -/
  | hostWordAtTop
  deriving DecidableEq, Repr

/-- All eight flags 0 ("flags cleared", R40). -/
def Flags.cleared : Flags :=
  { c := false, z := false, i := false, d := false, b := false, u := false, v := false, n := false }

/-- The state after the `reset` command (R40, R210): every value is the spec's. `CYC` is 0 by its decision D10
(notes/assumptions/3.md); `diag` restarts empty (notes/assumptions/4.md). -/
def State.reset : State :=
  { a := 0x00, x := 0x00, y := 0x00, sp := Config.resetSp, pc := Config.resetPc, flags := Flags.cleared,
    cyc := 0, mem := [], phase := .fetchingOpcode, diag := [] }

end Sys2Proof.Machine
end

