-- ==== Sys2Proof/Machine/Flags.lean ====
section
/-! DEFINITION. Sys2Proof/Machine/Flags.lean: the one flag computation of the machine (spec/42_lda.md R140) and the
packed status byte of the host's view (spec/10_state.md R35). -/

namespace Sys2Proof.Machine

/-- `SetZN(v)`: Z says whether `v` is zero, N is bit 7 of `v`; both are written, to 0 as well as to 1 (R140). -/
def Flags.setZN (f : Flags) (v : Byte) : Flags :=
  { f with z := v == 0x00, n := v.getLsbD 7 }

/-- A flag at a bit position of the packed byte. -/
def flagBit (f : Bool) (k : Nat) : Byte := if f then (1 : Byte) <<< k else 0

/-- The packed byte `P = {N, V, U, B, D, I, Z, C}` (R35).
DEDUCED: bit positions are the spec's decision D11 (notes/assumptions/2.md). -/
def Flags.pack (f : Flags) : Byte :=
  flagBit f.c 0 ||| flagBit f.z 1 ||| flagBit f.i 2 ||| flagBit f.d 3 |||
    flagBit f.b 4 ||| flagBit f.u 5 ||| flagBit f.v 6 ||| flagBit f.n 7

end Sys2Proof.Machine
end

