-- ==== Sys2Proof/Syntax.lean ====
section
/-! DEFINITION. Sys2Proof/Syntax.lean: the instructions, one constructor per row of spec/opcode_table.json
(spec/30_encoding.md R84 for the nine implemented opcodes, R85 for the catch-all row). -/

namespace Sys2Proof

/-- The ten rows of the opcode table, operands assembled as R83 says. -/
inductive Instr where
  /-- 0xA9, LDA immediate: the operand byte is the data (R141). -/
  | ldaImm (imm : Byte)
  /-- 0xA5, LDA zero-page: the operand byte is a zero-page address (R142). -/
  | ldaZp (z : Byte)
  /-- 0xB5, LDA zero-page,X (R143). -/
  | ldaZpX (z : Byte)
  /-- 0xAD, LDA absolute (R144). -/
  | ldaAbs (abs : Word)
  /-- 0xBD, LDA absolute,X (R145). -/
  | ldaAbsX (abs : Word)
  /-- 0xB9, LDA absolute,Y (R146). -/
  | ldaAbsY (abs : Word)
  /-- 0xA1, LDA (indirect,X) (R147). -/
  | ldaIndX (z : Byte)
  /-- 0xB1, LDA (indirect),Y (R148). -/
  | ldaIndY (z : Byte)
  /-- 0x20, JSR absolute (R160). -/
  | jsrAbs (target : Word)
  /-- Every other opcode byte `op`: a one-byte instruction that only reports itself (R85, R190). -/
  | unimplemented (op : Byte)
  deriving DecidableEq, Repr

/-- The three formats of R81. -/
inductive Format where
  /-- opcode only -/
  | F0
  /-- opcode and one operand byte -/
  | FB
  /-- opcode and a little-endian operand word -/
  | FW
  deriving DecidableEq, Repr

end Sys2Proof
end

