-- ==== Sys2Proof/WellFormed.lean ====
section
/-! DEFINITION. Sys2Proof/WellFormed.lean: which terms of `Instr` are instructions of the machine.
Operand widths are in the types (R83); what is left to check is that the catch-all row stands for none of
the nine implemented opcode bytes (spec/30_encoding.md R84, R85). -/

namespace Sys2Proof

/-- The nine implemented opcode bytes in ascending order, as the last line of R84 lists them. -/
def implementedOpcodes : List Byte :=
  [0x20, 0xA1, 0xA5, 0xA9, 0xAD, 0xB1, 0xB5, 0xB9, 0xBD]

/-- An instruction is well formed unless it calls an implemented opcode byte unimplemented (R85). -/
def Instr.wf : Instr → Bool
  | .ldaImm _ => true
  | .ldaZp _ => true
  | .ldaZpX _ => true
  | .ldaAbs _ => true
  | .ldaAbsX _ => true
  | .ldaAbsY _ => true
  | .ldaIndX _ => true
  | .ldaIndY _ => true
  | .jsrAbs _ => true
  | .unimplemented op => !implementedOpcodes.contains op

end Sys2Proof
end

