-- ==== Sys2Proof/Decode.lean ====
section
/-! DEFINITION. Sys2Proof/Decode.lean: the byte-order helpers, the decoder as a table (spec/30_encoding.md
R80 to R88, spec/40_engine_loop.md R108) and the encoder. -/

namespace Sys2Proof

/-! ### Byte order (spec/00_scope.md R6, R7; spec/20_memory.md R57) -/

/-- `{h, l} = h * 256 + l` (R6). -/
def joinBytes (h l : Byte) : Word := h ++ l

/-- `lo(w) = w[7:0]` (R6). -/
def loByte (w : Word) : Byte := w.extractLsb' 0 8

/-- `hi(w) = w[15:8]` (R6). -/
def hiByte (w : Word) : Byte := w.extractLsb' 8 8

/-- `zext_16(b)`: the only widening in the machine; nothing is ever sign-extended (R7). -/
def zext16 (b : Byte) : Word := b.setWidth 16

/-! ### The dispatch table (R84) -/

/-- The nine entries of the dispatch table, by name. -/
inductive Opcode where
  | ldaImm | ldaZp | ldaZpX | ldaAbs | ldaAbsX | ldaAbsY | ldaIndX | ldaIndY | jsrAbs
  deriving DecidableEq, Repr

/-- The dispatch table, in the order of R84: opcode byte and entry. The match is on all eight bits (R82). -/
def dispatchTable : List (Byte × Opcode) :=
  [(0xA9, .ldaImm), (0xA5, .ldaZp), (0xB5, .ldaZpX), (0xAD, .ldaAbs), (0xBD, .ldaAbsX),
   (0xB9, .ldaAbsY), (0xA1, .ldaIndX), (0xB1, .ldaIndY), (0x20, .jsrAbs)]

/-- The first entry of a table whose opcode byte is `op`. -/
def lookupIn : List (Byte × Opcode) → Byte → Option Opcode
  | [], _ => none
  | (code, k) :: rows, op => if op = code then some k else lookupIn rows op

/-- The dispatch of an opcode byte; `none` is the unimplemented arm (R108). -/
def lookupOpcode (op : Byte) : Option Opcode := lookupIn dispatchTable op

/-- The format of a table entry (R84, column "format"). -/
def Opcode.format : Opcode → Format
  | .ldaImm => .FB
  | .ldaZp => .FB
  | .ldaZpX => .FB
  | .ldaAbs => .FW
  | .ldaAbsX => .FW
  | .ldaAbsY => .FW
  | .ldaIndX => .FB
  | .ldaIndY => .FB
  | .jsrAbs => .FW

/-- The instruction of a table entry, from the byte after the opcode and the byte after that.
The word operand is little-endian in the instruction stream (R83). -/
def Opcode.build (b1 b2 : Byte) : Opcode → Instr
  | .ldaImm => .ldaImm b1
  | .ldaZp => .ldaZp b1
  | .ldaZpX => .ldaZpX b1
  | .ldaAbs => .ldaAbs (joinBytes b2 b1)
  | .ldaAbsX => .ldaAbsX (joinBytes b2 b1)
  | .ldaAbsY => .ldaAbsY (joinBytes b2 b1)
  | .ldaIndX => .ldaIndX b1
  | .ldaIndY => .ldaIndY b1
  | .jsrAbs => .jsrAbs (joinBytes b2 b1)

/-- The format an opcode byte selects; an unimplemented opcode is a one-byte instruction (R80, R85). -/
def formatOf (op : Byte) : Format :=
  match lookupOpcode op with
  | some k => k.format
  | none => .F0

/-- The decoder on an opcode byte and the two bytes that follow it in memory: total on any bytes (R86).
The bytes past the instruction's own length play no part. -/
def decodeInstr (op b1 b2 : Byte) : Instr :=
  match lookupOpcode op with
  | some k => k.build b1 b2
  | none => .unimplemented op

/-! ### Decoding a byte string -/

/-- Why a byte string is no instruction: it is too short. No byte is itself a reason (R86). -/
inductive DecodeError where
  /-- the string is empty -/
  | noOpcode
  /-- the operand bytes of the opcode `op` are not all there -/
  | missingOperand (op : Byte)
  deriving DecidableEq, Repr

/-- Reads one instruction from the front of a byte string and returns it with the rest (R80, R81). -/
def decode : List Byte → Except DecodeError (Instr × List Byte)
  | [] => .error .noOpcode
  | op :: rest =>
    match formatOf op with
    | .F0 => .ok (decodeInstr op 0 0, rest)
    | .FB =>
      match rest with
      | b :: rest => .ok (decodeInstr op b 0, rest)
      | [] => .error (.missingOperand op)
    | .FW =>
      match rest with
      | lo :: hi :: rest => .ok (decodeInstr op lo hi, rest)
      | [_] => .error (.missingOperand op)
      | [] => .error (.missingOperand op)

/-! ### The encoder and the length of an instruction -/

/-- The bytes of an instruction in fetch order (R81, R84; the assembler rows of R89). -/
def encode : Instr → List Byte
  | .ldaImm imm => [0xA9, imm]
  | .ldaZp z => [0xA5, z]
  | .ldaZpX z => [0xB5, z]
  | .ldaAbs abs => [0xAD, loByte abs, hiByte abs]
  | .ldaAbsX abs => [0xBD, loByte abs, hiByte abs]
  | .ldaAbsY abs => [0xB9, loByte abs, hiByte abs]
  | .ldaIndX z => [0xA1, z]
  | .ldaIndY z => [0xB1, z]
  | .jsrAbs target => [0x20, loByte target, hiByte target]
  | .unimplemented op => [op]

/-- The length in bytes of a format (R81). -/
def Format.length : Format → Nat
  | .F0 => 1
  | .FB => 2
  | .FW => 3

/-- The length of an instruction, a function of its opcode byte alone (R88). -/
def Instr.size : Instr → Nat
  | .ldaImm _ => 2
  | .ldaZp _ => 2
  | .ldaZpX _ => 2
  | .ldaAbs _ => 3
  | .ldaAbsX _ => 3
  | .ldaAbsY _ => 3
  | .ldaIndX _ => 2
  | .ldaIndY _ => 2
  | .jsrAbs _ => 3
  | .unimplemented _ => 1

/-! ### Table words -/

/-- Byte `k` of an instruction whose bits are `w`, numbered as spec/opcode_table.json numbers them
(byte 0 is bits 7..0); bits from `nbits` on are 0. -/
def tableByte (nbits w k : Nat) : Byte := BitVec.ofNat 8 ((w % 2 ^ nbits) >>> (8 * k))

/-- The instruction the decoder reads from a table word laid out in memory, first byte at the lowest address.
Three bytes are the longest instruction (R88). -/
def decodeTableWord (nbits w : Nat) : Option Instr :=
  match decode [tableByte nbits w 0, tableByte nbits w 1, tableByte nbits w 2] with
  | .ok (i, _) => some i
  | .error _ => none

end Sys2Proof
end

