-- ==== Sys2Proof/Machine/Ops.lean ====
section
/-! DEFINITION. Sys2Proof/Machine/Ops.lean: the named operations over memory and registers
(spec/20_memory.md, spec/40_engine_loop.md R105 to R107, spec/43_jsr.md R161, R162), and the one exceptional event
(spec/60_exceptions.md R190). There is no trap entry and no trap return to model (R194, R195). -/

namespace Sys2Proof.Machine

/-! ### The memory array (R37, R50 to R56) -/

/-- What an address the memory does not list reads as: the reset contents, 0x00 (R37, R56; notes/assumptions/9.md). -/
def Memory.unlisted : Byte := Config.resetByte

/-- The cell at an address. -/
def Memory.read : Memory → Nat → Byte
  | [], _ => Memory.unlisted
  | (key, v) :: rest, k => if key = k then v else Memory.read rest k

/-- `m` without the entries at `k`. -/
def Memory.erase (m : Memory) (k : Nat) : Memory := m.filter fun cell => cell.1 != k

/-- Puts the entry `(k, v)` before the first entry with a larger address. -/
def Memory.insert : Memory → Nat → Byte → Memory
  | [], k, v => [(k, v)]
  | (key, w) :: rest, k, v => if k < key then (k, v) :: (key, w) :: rest else (key, w) :: Memory.insert rest k v

/-- The memory with `v` at `k`; writing what an unlisted address reads as leaves `k` unlisted. -/
def Memory.write (m : Memory) (k : Nat) (v : Byte) : Memory :=
  if v = Memory.unlisted then Memory.erase m k else Memory.insert (Memory.erase m k) k v

/-- Addresses rise strictly from `lo` on, stay inside the address space, and no entry holds what an unlisted address reads as. -/
def Memory.wfFrom : Nat → Memory → Bool
  | _, [] => true
  | lo, (k, v) :: rest => decide (lo ≤ k) && decide (k < Config.memSize) && (v != Memory.unlisted) && Memory.wfFrom (k + 1) rest

/-- The canonical form: equal memories are equal lists. -/
def Memory.wf (m : Memory) : Bool := Memory.wfFrom 0 m

/-- `MemRead(addr, 1)`: no charge, no side effect, no failure (R51). -/
def State.readByte (s : State) (addr : Word) : Byte := Memory.read s.mem addr.toNat

/-- `MemWrite(addr, 1, v)`: every other cell unchanged, no charge (R52). -/
def State.writeByte (s : State) (addr : Word) (v : Byte) : State :=
  { s with mem := Memory.write s.mem addr.toNat v }

/-- `MemRead(addr, 2)` for `addr` up to 0xFFFE, little-endian; the host's, never the engine's (R53, R57). At 0xFFFF the host's
command is refused (R55, Machine/HostOps.lean). -/
def State.readWord (s : State) (addr : Word) : Word := joinBytes (s.readByte (addr + 1)) (s.readByte addr)

/-- `MemWrite(addr, 2, v)` for `addr` up to 0xFFFE, little-endian; the host's, never the engine's (R54, R57). -/
def State.writeWord (s : State) (addr v : Word) : State :=
  (s.writeByte addr (loByte v)).writeByte (addr + 1) (hiByte v)

/-! ### The cycle charge (R62, R107) -/

/-- `Tick(k)`: `CYC <- CYC - k` on the signed counter (R107). -/
def State.tick (s : State) (k : Nat) : State := { s with cyc := s.cyc - (k : Int) }

/-- `ReadC(addr)`: a charged engine read (R107). -/
def State.readC (s : State) (addr : Word) : Byte × State :=
  let s := s.tick Config.costByteAccess
  (s.readByte addr, s)

/-- `WriteC(addr, v)`: a charged engine write (R107). -/
def State.writeC (s : State) (addr : Word) (v : Byte) : State :=
  (s.tick Config.costByteAccess).writeByte addr v

/-! ### Fetch (R105, R106) -/

/-- What `FetchByte()` does to the state, whatever the byte: one cycle, and `PC <- PC +16 1`, which wraps at 0xFFFF
(R105, R25; DEDUCED: the spec's decision D8, notes/assumptions/10.md). -/
def State.passByte (s : State) : State :=
  let s := s.tick Config.costByteAccess
  { s with pc := s.pc + 1 }

/-- What `FetchWord()` does to the state: two `FetchByte()` (R106). -/
def State.passWord (s : State) : State := s.passByte.passByte

/-- `FetchByte()`: the byte at PC, charged, PC advanced (R105). -/
def State.fetchByte (s : State) : Byte × State := (s.readByte s.pc, s.passByte)

/-- `FetchWord()`: low byte first, each byte at the then-current PC (R106). -/
def State.fetchWord (s : State) : Word × State :=
  let l := s.fetchByte
  let h := l.2.fetchByte
  (joinBytes h.1 l.1, h.2)

/-- The byte `k` places after PC in the instruction stream, modulo 65536 (R90). Reads have no effect (R51). -/
def State.streamByte (s : State) (k : Word) : Byte := s.readByte (s.pc + k)

/-- The instruction at PC. The decoder is given three bytes, the longest instruction (R88); it uses those of the
instruction's own length (notes/assumptions/6.md). -/
def State.fetchedInstr (s : State) : Instr :=
  decodeInstr (s.streamByte 0) (s.streamByte 1) (s.streamByte 2)

/-! ### The stack (R24, R161, R162) -/

/-- `StackAddr(SP) = {0x01, SP}` (R162).
PRESUMED: the page number is the spec's decision D2 (notes/assumptions/1.md). -/
def stackAddr (sp : Byte) : Word := Config.stackPage + zext16 sp

/-- `Push(b)`: store at the cell SP designates, then `SP <- SP -8 1` (R161).
PRESUMED: direction and order are the spec's decision D3 (notes/assumptions/1.md). -/
def State.push (s : State) (v : Byte) : State :=
  let s := s.writeC (stackAddr s.sp) v
  { s with sp := s.sp - 1 }

/-! ### The micro-state (R38, R111) -/

/-- The engine enters a phase. -/
def State.enter (s : State) (p : Phase) : State := { s with phase := p }

/-! ### The one exceptional event (R190) -/

/-- `emit Unimplemented(addr, op)`: not a trap; no register, flag or cell changes and control goes on (R190, R194). -/
def State.emitUnimplemented (s : State) (addr : Word) (op : Byte) : State :=
  { s with diag := s.diag ++ [{ addr := addr, op := op }] }

end Sys2Proof.Machine
end

