-- ==== Sys2Proof/Machine/Operands.lean ====
section
/-! DEFINITION. Sys2Proof/Machine/Operands.lean: the addressing-mode resolver (spec/41_addressing_modes.md).
Each resolver runs after the opcode fetch on the operand the decoder assembled from the instruction's bytes; it charges
and passes those bytes as `FetchByte` and `FetchWord` do, and returns the effective address. No resolver writes a register
other than PC and CYC, none sign-extends, none can fault (R130). Where an address wraps (inside page 0, or modulo 65536) the
spec follows its decisions D4 to D8: DEDUCED (notes/assumptions/10.md). -/

namespace Sys2Proof.Machine

/-- `PageCross(base, eff)`: the high bytes differ; `base` is the address before the index is added (R128). -/
def pageCross (base eff : Word) : Bool := ((base ^^^ eff) >>> 8) != 0

/-- `ReadPtrZP(z)`: a little-endian pointer, both bytes inside zero page, so the high byte of a pointer at 0xFF comes from
0x0000 (R129). -/
def State.readPtrZP (s : State) (z : Byte) : Word × State :=
  let l := s.readC (zext16 z)
  let h := l.2.readC (zext16 (z + 1))
  (joinBytes h.1 l.1, h.2)

/-- The penalty cycle of an indexed mode, present only on a page cross (R124, R125, R127). -/
def State.tickOnCross (s : State) (base eff : Word) : State :=
  if pageCross base eff then s.tick 1 else s

/-- `Imm()`: the operand byte is the data (R120). -/
def resolveImm (imm : Byte) (s : State) : Byte × State := (imm, s.passByte)

/-- `ZP()` (R121). -/
def resolveZp (z : Byte) (s : State) : Word × State := (zext16 z, s.passByte)

/-- `ZPX()`: the 8-bit sum stays inside page 0, and the addition always costs one cycle (R122). -/
def resolveZpX (z : Byte) (s : State) : Word × State :=
  let s := s.passByte.tick 1
  (zext16 (z + s.x), s)

/-- `Abs()` (R123). -/
def resolveAbs (abs : Word) (s : State) : Word × State := (abs, s.passWord)

/-- `AbsX()`: 16-bit sum, one cycle more on a page cross (R124). -/
def resolveAbsX (abs : Word) (s : State) : Word × State :=
  let s := s.passWord
  let ea := abs + zext16 s.x
  (ea, s.tickOnCross abs ea)

/-- `AbsY()` (R125). -/
def resolveAbsY (abs : Word) (s : State) : Word × State :=
  let s := s.passWord
  let ea := abs + zext16 s.y
  (ea, s.tickOnCross abs ea)

/-- `IndX()`: X is added in 8 bits to find the pointer; always one cycle, no page-cross test (R126). -/
def resolveIndX (z : Byte) (s : State) : Word × State :=
  let s := s.passByte.tick 1
  s.readPtrZP (z + s.x)

/-- `IndY()`: Y is added to the pointer; the base of the page-cross test is the pointer (R127). -/
def resolveIndY (z : Byte) (s : State) : Word × State :=
  let ptr := s.passByte.readPtrZP z
  let ea := ptr.1 + zext16 ptr.2.y
  (ea, ptr.2.tickOnCross ptr.1 ea)

end Sys2Proof.Machine
end

