-- ==== Sys2Proof/Machine/Lda.lean ====
section
/-! DEFINITION. Sys2Proof/Machine/Lda.lean: LDA in its eight addressing modes (spec/42_lda.md).
A meaning takes the state at the instruction's first byte: PC at the opcode, nothing charged (notes/assumptions/6.md). -/

namespace Sys2Proof.Machine

/-- The opcode fetch of `Step` (R110): one cycle, PC + 1, and the engine goes on to resolve the address (R111). -/
def State.passOpcode (s : State) : State := s.passByte.enter .resolvingAddress

/-- `A <- v; SetZN(v)` (R140). -/
def State.loadA (s : State) (v : Byte) : State := { s with a := v, flags := s.flags.setZN v }

/-- The common end of the seven LDA forms with an address: the charged data read, the load, and the end of the
instruction (R142 to R148). -/
def loadFrom (resolved : Word × State) : State :=
  let d := (resolved.2.enter .executingMutation).readC resolved.1
  (d.2.loadA d.1).enter .fetchingOpcode

/-- LDA immediate, 0xA9 (R141). Its address-resolving phase is empty (R111). -/
def execLdaImm (imm : Byte) (s : State) : Host.Outcome State Fault Refusal :=
  let v := resolveImm imm (s.passByte.enter .executingMutation)
  .next ((v.2.loadA v.1).enter .fetchingOpcode)

/-- LDA zero-page, 0xA5 (R142). -/
def execLdaZp (z : Byte) (s : State) : Host.Outcome State Fault Refusal :=
  .next (loadFrom (resolveZp z s.passOpcode))

/-- LDA zero-page,X, 0xB5 (R143). -/
def execLdaZpX (z : Byte) (s : State) : Host.Outcome State Fault Refusal :=
  .next (loadFrom (resolveZpX z s.passOpcode))

/-- LDA absolute, 0xAD (R144). -/
def execLdaAbs (abs : Word) (s : State) : Host.Outcome State Fault Refusal :=
  .next (loadFrom (resolveAbs abs s.passOpcode))

/-- LDA absolute,X, 0xBD (R145). -/
def execLdaAbsX (abs : Word) (s : State) : Host.Outcome State Fault Refusal :=
  .next (loadFrom (resolveAbsX abs s.passOpcode))

/-- LDA absolute,Y, 0xB9 (R146). -/
def execLdaAbsY (abs : Word) (s : State) : Host.Outcome State Fault Refusal :=
  .next (loadFrom (resolveAbsY abs s.passOpcode))

/-- LDA (indirect,X), 0xA1 (R147). -/
def execLdaIndX (z : Byte) (s : State) : Host.Outcome State Fault Refusal :=
  .next (loadFrom (resolveIndX z s.passOpcode))

/-- LDA (indirect),Y, 0xB1 (R148). -/
def execLdaIndY (z : Byte) (s : State) : Host.Outcome State Fault Refusal :=
  .next (loadFrom (resolveIndY z s.passOpcode))

end Sys2Proof.Machine
end

