-- ==== Sys2Proof/Machine/Jsr.lean ====
section
/-! DEFINITION. Sys2Proof/Machine/Jsr.lean: JSR absolute (spec/43_jsr.md R160). -/

namespace Sys2Proof.Machine

/-- JSR absolute, 0x20: push the address of the instruction's own last byte, high byte first, then jump; one internal
cycle (R160). DEDUCED: that the pushed address is the opcode's + 2 is the spec's decision D23 (notes/assumptions/13.md).
The target was read before the pushes, so a JSR that overwrites its own bytes is not affected (R160 (f)). -/
def execJsrAbs (target : Word) (s : State) : Host.Outcome State Fault Refusal :=
  let t := resolveAbs target s.passOpcode
  let ret := t.2.pc - 1
  let s := t.2.enter .executingMutation
  let s := (s.push (hiByte ret)).push (loByte ret)
  let s := { s with pc := t.1 }
  .next ((s.tick 1).enter .fetchingOpcode)

end Sys2Proof.Machine
end

