-- ==== Sys2Proof/Machine/Unimplemented.lean ====
section
/-! DEFINITION. Sys2Proof/Machine/Unimplemented.lean: the arm of every other opcode byte (spec/60_exceptions.md R190,
spec/30_encoding.md R85). -/

namespace Sys2Proof.Machine

/-- An unimplemented opcode: the opcode fetch, one event with the address it was fetched from, and nothing else; the run
goes on (R190). DEDUCED: cost, length and payload are the spec's decision D12 (notes/assumptions/14.md). -/
def execUnimplemented (op : Byte) (s : State) : Host.Outcome State Fault Refusal :=
  .next ((s.passByte.emitUnimplemented s.pc op).enter .fetchingOpcode)

end Sys2Proof.Machine
end

