-- ==== Sys2Proof/Machine/Step.lean ====
section
/-! DEFINITION. Sys2Proof/Machine/Step.lean: one instruction is one step (spec/40_engine_loop.md R110). The loop that
tests CYC between steps is `execute` in Machine/HostOps.lean (R100, R101). -/

namespace Sys2Proof.Machine

/-- `Step()`: runs the instruction whose first byte is at PC (R110). It does not test CYC: the loop does (R101, R107).
DESIGN CHOICE, unsafe: so it also steps a state the hardware would leave idle (notes/assumptions/5.md). -/
def step (s : State) : Host.Outcome State Fault Refusal := exec s.fetchedInstr s

/-- `s` with the three bytes of a table word stored from PC on, modulo 65536: what the host's memory injection (R175) would
leave. Nothing else is changed; `step` needs nothing else (notes/assumptions/5.md). -/
def State.withFetchWord (s : State) (nbits w : Nat) : State :=
  ((s.writeByte s.pc (tableByte nbits w 0)).writeByte (s.pc + 1) (tableByte nbits w 1)).writeByte (s.pc + 2)
    (tableByte nbits w 2)

end Sys2Proof.Machine
end

