-- ==== Sys2Proof/Machine/Tables.lean ====
section
/-! DEFINITION. Sys2Proof/Machine/Tables.lean: the spec's two summary tables as functions of an instruction and the state
before it, written from the tables and not from the meanings: effective addresses (spec/41_addressing_modes.md R131) and
cycle totals (spec/40_engine_loop.md R114). The statements compare the meanings with them. -/

namespace Sys2Proof.Machine

/-- The pointer at a zero-page location, both bytes inside zero page (R129). -/
def State.pointerAt (s : State) (z : Byte) : Word :=
  joinBytes (s.readByte (zext16 (z + 1))) (s.readByte (zext16 z))

/-- R131, column "effective address"; `none` where the mode reads no data at an address. -/
def effectiveAddr (i : Instr) (s : State) : Option Word :=
  match i with
  | .ldaImm _ => none
  | .ldaZp z => some (zext16 z)
  | .ldaZpX z => some (zext16 (z + s.x))
  | .ldaAbs abs => some abs
  | .ldaAbsX abs => some (abs + zext16 s.x)
  | .ldaAbsY abs => some (abs + zext16 s.y)
  | .ldaIndX z => some (s.pointerAt (z + s.x))
  | .ldaIndY z => some (s.pointerAt z + zext16 s.y)
  | .jsrAbs _ => none
  | .unimplemented _ => none

/-- The byte an LDA loads: the operand itself, or the cell at the effective address (R141 to R148); `none` for no LDA. -/
def loadedByte (i : Instr) (s : State) : Option Byte :=
  match i with
  | .ldaImm imm => some imm
  | _ => (effectiveAddr i s).map s.readByte

/-- One cycle if the two addresses lie in different pages (R128, by the high bytes). -/
def crossCost (base eff : Word) : Nat := if hiByte base = hiByte eff then 0 else 1

/-- R114, column "total", opcode fetch included.
DEDUCED: the totals are the spec's decision D18 (notes/assumptions/11.md). -/
def cycleCost (i : Instr) (s : State) : Nat :=
  match i with
  | .ldaImm _ => 2
  | .ldaZp _ => 3
  | .ldaZpX _ => 4
  | .ldaAbs _ => 4
  | .ldaAbsX abs => 4 + crossCost abs (abs + zext16 s.x)
  | .ldaAbsY abs => 4 + crossCost abs (abs + zext16 s.y)
  | .ldaIndX _ => 6
  | .ldaIndY z => 5 + crossCost (s.pointerAt z) (s.pointerAt z + zext16 s.y)
  | .jsrAbs _ => 6
  | .unimplemented _ => 1

end Sys2Proof.Machine
end

