-- ==== Sys2Proof/Machine/Port.lean ====
section
/-! DEFINITION. Sys2Proof/Machine/Port.lean: the memory port (spec/50_interfaces.md R171) as the list of what the engine does
in each cycle of an instruction, in the order of spec/20_memory.md R70. It is no part of State: it is a function of the
instruction and the state before it (notes/assumptions/15.md). -/

namespace Sys2Proof.Machine

/-- One cycle of the engine at the memory port (R171). -/
inductive PortCycle where
  /-- `we = 0`: `addr` out, `rdata` in -/
  | read (addr : Word) (rdata : Byte)
  /-- `we = 1`: `addr` and `wdata` out -/
  | write (addr : Word) (wdata : Byte)
  /-- an internal cycle: no access -/
  | internal
  deriving DecidableEq, Repr

/-- A read of the cell at `addr`. -/
def State.portRead (s : State) (addr : Word) : PortCycle := .read addr (s.readByte addr)

/-- `op, b`: the opcode and one operand byte (R70). -/
def State.portFetch2 (s : State) : List PortCycle := [s.portRead s.pc, s.portRead (s.pc + 1)]

/-- `op, lo, hi`: the opcode and the operand word (R70). -/
def State.portFetch3 (s : State) : List PortCycle :=
  [s.portRead s.pc, s.portRead (s.pc + 1), s.portRead (s.pc + 2)]

/-- `p0, p1`: the pointer bytes in zero page (R70, R129). -/
def State.portPointer (s : State) (z : Byte) : List PortCycle :=
  [s.portRead (zext16 z), s.portRead (zext16 (z + 1))]

/-- `(i)`: the internal cycle present only on a page cross (R70). -/
def portCross (base eff : Word) : List PortCycle := if pageCross base eff then [.internal] else []

/-- The sequence of R70 for an instruction at PC.
DEDUCED: the place of the internal cycles is the spec's decision D17 (notes/assumptions/11.md). -/
def portCycles (i : Instr) (s : State) : List PortCycle :=
  match i with
  | .ldaImm _ => s.portFetch2
  | .ldaZp z => s.portFetch2 ++ [s.portRead (zext16 z)]
  | .ldaZpX z => s.portFetch2 ++ [.internal, s.portRead (zext16 (z + s.x))]
  | .ldaAbs abs => s.portFetch3 ++ [s.portRead abs]
  | .ldaAbsX abs => s.portFetch3 ++ portCross abs (abs + zext16 s.x) ++ [s.portRead (abs + zext16 s.x)]
  | .ldaAbsY abs => s.portFetch3 ++ portCross abs (abs + zext16 s.y) ++ [s.portRead (abs + zext16 s.y)]
  | .ldaIndX z =>
    s.portFetch2 ++ [.internal] ++ s.portPointer (z + s.x) ++ [s.portRead (s.pointerAt (z + s.x))]
  | .ldaIndY z =>
    s.portFetch2 ++ s.portPointer z ++ portCross (s.pointerAt z) (s.pointerAt z + zext16 s.y) ++
      [s.portRead (s.pointerAt z + zext16 s.y)]
  | .jsrAbs _ =>
    s.portFetch3 ++ [.write (stackAddr s.sp) (hiByte (s.pc + 2)), .write (stackAddr (s.sp - 1)) (loByte (s.pc + 2)),
      .internal]
  | .unimplemented _ => [s.portRead s.pc]

/-- The memory after a sequence of port cycles: the writes, in order (R171). -/
def replayPort (m : Memory) : List PortCycle → Memory
  | [] => m
  | .read _ _ :: rest => replayPort m rest
  | .write addr v :: rest => replayPort (Memory.write m addr.toNat v) rest
  | .internal :: rest => replayPort m rest

end Sys2Proof.Machine
end

