-- ==== Sys2Proof/Machine/Reference.lean ====
section
/-! DEFINITION. Sys2Proof/Machine/Reference.lean: the spec's pseudocode of `Step` written out as it stands, operand bytes
fetched one by one at the then-current PC while the instruction runs (spec/40_engine_loop.md R105 to R110). The machine's
`step` decodes first and runs after; that the two agree on every state is a statement
(Obligations.StepAgreesWithPseudocode). -/

namespace Sys2Proof.Machine.Reference

/-- `Imm()` (R120). -/
def imm (s : State) : Byte × State := s.fetchByte

/-- `ZP()` (R121). -/
def zp (s : State) : Word × State :=
  let z := s.fetchByte
  (zext16 z.1, z.2)

/-- `ZPX()` (R122). -/
def zpX (s : State) : Word × State :=
  let z := s.fetchByte
  let s := z.2.tick 1
  (zext16 (z.1 + s.x), s)

/-- `Abs()` (R123). -/
def abs (s : State) : Word × State := s.fetchWord

/-- `AbsX()` (R124). -/
def absX (s : State) : Word × State :=
  let base := s.fetchWord
  let s := base.2
  let ea := base.1 + zext16 s.x
  (ea, if pageCross base.1 ea then s.tick 1 else s)

/-- `AbsY()` (R125). -/
def absY (s : State) : Word × State :=
  let base := s.fetchWord
  let s := base.2
  let ea := base.1 + zext16 s.y
  (ea, if pageCross base.1 ea then s.tick 1 else s)

/-- `IndX()` (R126). -/
def indX (s : State) : Word × State :=
  let z := s.fetchByte
  let s := z.2.tick 1
  s.readPtrZP (z.1 + s.x)

/-- `IndY()` (R127). -/
def indY (s : State) : Word × State :=
  let z := s.fetchByte
  let base := z.2.readPtrZP z.1
  let s := base.2
  let ea := base.1 + zext16 s.y
  (ea, if pageCross base.1 ea then s.tick 1 else s)

/-- `A <- v; SetZN(v)` (R140). -/
def load (v : Byte) (s : State) : State :=
  { s with a := v, flags := { s.flags with z := v == 0x00, n := v.getLsbD 7 } }

/-- `v <- ReadC(ea); A <- v; SetZN(v)` (R142 to R148). -/
def loadAt (ea : Word × State) : State :=
  let v := ea.2.readC ea.1
  load v.1 v.2

/-- `JSR_abs()` (R160). -/
def jsrAbs (s : State) : State :=
  let target := abs s
  let s := target.2
  let ret := s.pc - 1
  let s := s.push (hiByte ret)
  let s := s.push (loByte ret)
  let s := { s with pc := target.1 }
  s.tick 1

/-- `Dispatch(op, at)` (R108). -/
def dispatch (op : Byte) (addr : Word) (s : State) : State :=
  if op = 0xA9 then load (imm s).1 (imm s).2
  else if op = 0xA5 then loadAt (zp s)
  else if op = 0xB5 then loadAt (zpX s)
  else if op = 0xAD then loadAt (abs s)
  else if op = 0xBD then loadAt (absX s)
  else if op = 0xB9 then loadAt (absY s)
  else if op = 0xA1 then loadAt (indX s)
  else if op = 0xB1 then loadAt (indY s)
  else if op = 0x20 then jsrAbs s
  else s.emitUnimplemented addr op

/-- `Step()` (R110). At its end the engine is between instructions again, so `PHASE` is `fetchingOpcode` (R38). -/
def step (s : State) : State :=
  let addr := s.pc
  let op := s.fetchByte
  (dispatch op.1 addr op.2).enter .fetchingOpcode

end Sys2Proof.Machine.Reference
end

