-- ==== Sys2Proof/Machine/HostOps.lean ====
section
/-! DEFINITION. Sys2Proof/Machine/HostOps.lean: the run (spec/40_engine_loop.md R100 to R104) and the host's commands on an
idle engine (spec/50_interfaces.md R172 to R175). What the host may not do has no move here: anything during a run, and
anything before the first reset (R177; notes/assumptions/7.md). -/

namespace Sys2Proof.Machine

/-- The loop of R101, `while CYC > 0: Step()`, at most `fuel` times. -/
def runLoop : Nat → State → Host.Outcome State Fault Refusal
  | 0, s => .next s
  | fuel + 1, s =>
    if 0 < s.cyc then
      match step s with
      | .next t => runLoop fuel t
      | .fault f => .fault f
      | .refused r => .refused r
    else .next s

/-- `execute(budget)`: load CYC, replacing what it held (R100; DEDUCED: the spec's decision D10, notes/assumptions/3.md), then
the loop (R101). Each step lowers CYC by at least 1, so `budget` steps are
enough for the loop to end by its own test (R109). -/
def execute (budget : Int) (s : State) : Host.Outcome State Fault Refusal :=
  runLoop budget.toNat { s with cyc := budget }

/-- The host's read-only view of registers, flags and counter (R174). -/
structure Snapshot where
  a : Byte
  x : Byte
  y : Byte
  sp : Byte
  pc : Word
  flags : Flags
  p : Byte
  cyc : Int
  deriving DecidableEq, Repr

/-- What the host sees of a state (R174); the packed byte is that of R35. -/
def State.snapshot (s : State) : Snapshot :=
  { a := s.a, x := s.x, y := s.y, sp := s.sp, pc := s.pc, flags := s.flags, p := s.flags.pack, cyc := s.cyc }

/-- The operations the host has while the engine is idle (R170, R177). -/
inductive HostCommand where
  /-- `reset` (R172, R210) -/
  | reset
  /-- `execute(budget)` (R173) -/
  | execute (budget : Int)
  /-- `MemRead(addr, 1)` (R51, R175) -/
  | readByte (addr : Word)
  /-- `MemWrite(addr, 1, v)` (R52, R175) -/
  | writeByte (addr : Word) (v : Byte)
  /-- `MemRead(addr, 2)` (R53, R175) -/
  | readWord (addr : Word)
  /-- `MemWrite(addr, 2, v)` (R54, R175) -/
  | writeWord (addr : Word) (v : Word)
  /-- snapshot (R174) -/
  | snapshot
  deriving DecidableEq, Repr

/-- What a host command answers. `execute` returns no value (R173). -/
inductive HostReply where
  | done
  | byte (v : Byte)
  | word (v : Word)
  | view (v : Snapshot)
  deriving DecidableEq, Repr

/-- One host command on an idle engine: the next state and the answer. A word operation at 0xFFFF is refused (R55). Host
accesses charge nothing (R62, R175). -/
def hostCommand (c : HostCommand) (s : State) : Host.Outcome (State × HostReply) Fault Refusal :=
  match c with
  | .reset => .next (State.reset, .done)
  | .execute budget =>
    match execute budget s with
    | .next t => .next (t, .done)
    | .fault f => .fault f
    | .refused r => .refused r
  | .readByte addr => .next (s, .byte (s.readByte addr))
  | .writeByte addr v => .next (s.writeByte addr v, .done)
  | .readWord addr => if addr = 0xFFFF then .refused .hostWordAtTop else .next (s, .word (s.readWord addr))
  | .writeWord addr v => if addr = 0xFFFF then .refused .hostWordAtTop else .next (s.writeWord addr v, .done)
  | .snapshot => .next (s, .view s.snapshot)

end Sys2Proof.Machine
end

