-- ==== Sys2Proof/Safety.lean ====
section
/-! DEFINITION. Sys2Proof/Safety.lean: the terms claims about whole runs are stated in: the invariant every step keeps, the
states the host can bring the machine to, and a clean run (spec/60_exceptions.md R203). The machine itself has no error
state to avoid: no step faults or is refused (spec/00_scope.md R9). -/

namespace Sys2Proof.Machine

/-- What holds between instructions in every state of a run: the memory is in its canonical form (DESIGN CHOICE,
notes/assumptions/9.md), `PHASE` is
`fetchingOpcode` (R38), and Z and N are not both 1 (R140, last sentence; both are 0 after reset). -/
structure State.Inv (s : State) : Prop where
  mem_wf : Memory.wf s.mem = true
  phase_fetching : s.phase = .fetchingOpcode
  not_zero_and_negative : ¬ (s.flags.z = true ∧ s.flags.n = true)

/-- What holds between host commands, the engine idle: the invariant, X = Y = 0 and the six flags no instruction writes at 0
(R22, R23, R26), and CYC not positive (R102; 0 after reset). -/
structure State.Idle (s : State) : Prop where
  inv : s.Inv
  x_zero : s.x = 0x00
  y_zero : s.y = 0x00
  c_clear : s.flags.c = false
  i_clear : s.flags.i = false
  d_clear : s.flags.d = false
  b_clear : s.flags.b = false
  u_clear : s.flags.u = false
  v_clear : s.flags.v = false
  cyc_nonpos : s.cyc ≤ 0

/-- The idle states the host can bring the machine to: it starts with `reset` (R41, R212) and issues commands (R177). -/
inductive Reachable : State → Prop where
  | reset : Reachable State.reset
  | command (c : HostCommand) (s t : State) (r : HostReply) (before : Reachable s)
      (answer : hostCommand c s = .next (t, r)) : Reachable t

/-- From `before` to `after` no `Unimplemented` event was emitted (R203). -/
def cleanRun (before after : State) : Prop := after.diag = before.diag

end Sys2Proof.Machine
end

