-- ==== Sys2Proof/Certificates/Slice0/Obligations.lean ====
section
/-! DEFINITION. Sys2Proof/Certificates/Slice0/Obligations.lean: the statements for the provers. Each docstring says which rule
of spec/ the statement formalises; where a clause rests on one of the spec's own decisions (spec/92_eei_decisions.md) or on a
choice of this model (notes/assumptions/), it says so. -/

open Sys2Proof Sys2Proof.Machine

/-! ### Reset and the host -/

/-- spec/10_state.md R40 and spec/70_reset_and_hazards.md R210: from every state the reset command answers, and leaves every register,
flag, cell and hidden state at its listed value. That CYC is 0 is the spec's decision D10 (notes/assumptions/3.md), that PC is
the literal 0xFFFC its D1 (notes/assumptions/13.md); that the model's own record `diag` restarts empty is notes/assumptions/4.md. -/
def Obligations.ResetGivesListedValues : Prop :=
  ∀ s : State, ∃ t, hostCommand .reset s = .next (t, .done) ∧
    t.pc = 0xFFFC ∧ t.sp = 0xFE ∧ t.a = 0x00 ∧ t.x = 0x00 ∧ t.y = 0x00 ∧
    t.flags.c = false ∧ t.flags.z = false ∧ t.flags.i = false ∧ t.flags.d = false ∧
    t.flags.b = false ∧ t.flags.u = false ∧ t.flags.v = false ∧ t.flags.n = false ∧
    (∀ addr : Word, t.readByte addr = 0x00) ∧ t.cyc = 0 ∧ t.phase = .fetchingOpcode ∧ t.diag = []

/-- spec/70_reset_and_hazards.md R213 (independence of the state before is derived there): the reset command gives `State.reset` whatever
the state before, and so a second reset changes nothing. That the model's own field `diag` restarts too is a choice of the
model, notes/assumptions/4.md. -/
def Obligations.ResetIsIdempotent : Prop :=
  (∀ s : State, hostCommand .reset s = .next (State.reset, .done)) ∧
  ∀ s : State, ∃ u, hostCommand .reset s = .next (u, .done) ∧ hostCommand .reset u = .next (u, .done)

/-- spec/20_memory.md R51 and R52: the host's byte read answers the cell, changes nothing and cannot fail; the byte write
puts `v` at `addr`, leaves every other cell, and changes nothing but memory (no charge). Reading twice gives the same byte. -/
def Obligations.HostByteReadAndWrite : Prop :=
  ∀ (s : State) (addr : Word) (v : Byte),
    hostCommand (.readByte addr) s = .next (s, .byte (s.readByte addr)) ∧
    ∃ t, hostCommand (.writeByte addr v) s = .next (t, .done) ∧
      hostCommand (.readByte addr) t = .next (t, .byte v) ∧
      (∀ r, r ≠ addr → hostCommand (.readByte r) t = .next (t, .byte (s.readByte r))) ∧
      { t with mem := s.mem } = s

/-- spec/20_memory.md R53, R54, R57: for every address up to 0xFFFE, odd or even, the host's word write stores the low byte
at `addr` and the high byte at `addr + 1`, and the word read gives the word back; nothing else changes and nothing is charged. -/
def Obligations.HostWordIsLittleEndian : Prop :=
  ∀ (s : State) (addr v : Word), addr ≠ 0xFFFF →
    ∃ t, hostCommand (.writeWord addr v) s = .next (t, .done) ∧
      hostCommand (.readWord addr) t = .next (t, .word v) ∧
      (t.readByte addr).toNat = v.toNat % 256 ∧ (t.readByte (addr + 1)).toNat = v.toNat / 256 ∧
      (∀ r, r ≠ addr → r ≠ addr + 1 → t.readByte r = s.readByte r) ∧ { t with mem := s.mem } = s

/-- spec/20_memory.md R55 and spec/50_interfaces.md R177, by the spec's decision D16: of the operations the host has on an
idle engine exactly the word operations at 0xFFFF are refused; every other one answers. -/
def Obligations.HostRefusedOnlyAtTopWord : Prop :=
  ∀ (c : HostCommand) (s : State),
    (hostCommand c s = .refused .hostWordAtTop ∧ (c = .readWord 0xFFFF ∨ ∃ v, c = .writeWord 0xFFFF v)) ∨
    ((∃ t r, hostCommand c s = .next (t, r)) ∧ c ≠ .readWord 0xFFFF ∧ ∀ v, c ≠ .writeWord 0xFFFF v)

/-- spec/50_interfaces.md R174 and R175: apart from `reset` and `execute` no host command changes a register, a flag, the
counter, or anything but memory; and the byte read, the word read and the snapshot change no state at all. -/
def Obligations.HostCannotWriteRegisters : Prop :=
  (∀ (c : HostCommand) (s t : State) (r : HostReply), c ≠ .reset → (∀ n, c ≠ .execute n) →
    hostCommand c s = .next (t, r) → { t with mem := s.mem } = s) ∧
  (∀ (s : State) (addr : Word), hostCommand (.readByte addr) s = .next (s, .byte (s.readByte addr))) ∧
  (∀ (s : State) (addr : Word), addr ≠ 0xFFFF → hostCommand (.readWord addr) s = .next (s, .word (s.readWord addr))) ∧
  (∀ s : State, hostCommand .snapshot s = .next (s, .view s.snapshot))

/-- spec/10_state.md R35 (bit positions by the spec's decision D11) and spec/50_interfaces.md R174: the snapshot shows each
register, each flag and CYC, and the packed byte holds C, Z, I, D, B, U, V, N in bits 0 to 7. -/
def Obligations.SnapshotShowsRegistersAndPackedFlags : Prop :=
  ∀ s : State, ∃ v, hostCommand .snapshot s = .next (s, .view v) ∧
    v.a = s.a ∧ v.x = s.x ∧ v.y = s.y ∧ v.sp = s.sp ∧ v.pc = s.pc ∧ v.flags = s.flags ∧ v.cyc = s.cyc ∧
    v.p.getLsbD 0 = s.flags.c ∧ v.p.getLsbD 1 = s.flags.z ∧ v.p.getLsbD 2 = s.flags.i ∧ v.p.getLsbD 3 = s.flags.d ∧
    v.p.getLsbD 4 = s.flags.b ∧ v.p.getLsbD 5 = s.flags.u ∧ v.p.getLsbD 6 = s.flags.v ∧ v.p.getLsbD 7 = s.flags.n

/-! ### Decoding -/

/-- spec/30_encoding.md R81, R83, R84: decoding the encoding of any well-formed instruction, with every operand at every value
and whatever bytes follow, gives the instruction back and leaves what follows. -/
def Obligations.DecodeOfEncode : Prop :=
  ∀ (i : Instr) (rest : List Byte), i.wf = true → decode (encode i ++ rest) = .ok (i, rest)

/-- spec/30_encoding.md R81, R82, R85: whatever bytes decode, the instruction is well formed and its encoding is exactly the
bytes consumed, so no byte string has two readings. -/
def Obligations.EncodeOfDecode : Prop :=
  ∀ (bytes rest : List Byte) (i : Instr), decode bytes = .ok (i, rest) → i.wf = true ∧ encode i ++ rest = bytes

/-- spec/30_encoding.md R85, R86: on any three bytes the decoder answers a well-formed instruction, the one the machine's fetch
takes from them; exactly the nine opcode bytes of R84 have an entry in the table, and the other 247 have none. -/
def Obligations.DecoderIsTotal : Prop :=
  (∀ b0 b1 b2 : Byte, ∃ rest, decode [b0, b1, b2] = .ok (decodeInstr b0 b1 b2, rest) ∧
    (decodeInstr b0 b1 b2).wf = true ∧ rest.length + (decodeInstr b0 b1 b2).size = 3) ∧
  (∀ op : Byte, lookupOpcode op ≠ none ↔
    op ∈ ([0xA9, 0xA5, 0xB5, 0xAD, 0xBD, 0xB9, 0xA1, 0xB1, 0x20] : List Byte)) ∧
  ((List.range 256).filter fun n => (lookupOpcode (BitVec.ofNat 8 n)).isNone).length = 247

/-- spec/30_encoding.md R88: the length of an instruction is a function of its opcode byte alone (3 for 0x20, 0xAD, 0xB9,
0xBD; 2 for 0xA1, 0xA5, 0xA9, 0xB1, 0xB5; 1 otherwise), and no register and no flag affects how a byte is decoded. -/
def Obligations.LengthIsDecidedByOpcodeByte : Prop :=
  (∀ op b1 b2 : Byte, (decodeInstr op b1 b2).size =
    if op ∈ ([0x20, 0xAD, 0xB9, 0xBD] : List Byte) then 3
    else if op ∈ ([0xA1, 0xA5, 0xA9, 0xB1, 0xB5] : List Byte) then 2 else 1) ∧
  (∀ (s t : State), s.pc = t.pc → (∀ r, s.readByte r = t.readByte r) → s.fetchedInstr = t.fetchedInstr)

/-- spec/30_encoding.md R84 and R89: sample words, one per row, written out from the encodings (first byte in bits 7..0). -/
def Obligations.SampleWordsDecode : Prop :=
  decodeTableWord 16 0b10000100_10101001 = some (.ldaImm 0x84) ∧
  decodeTableWord 16 0b01000010_10100101 = some (.ldaZp 0x42) ∧
  decodeTableWord 16 0b10000000_10110101 = some (.ldaZpX 0x80) ∧
  decodeTableWord 24 0b01000100_10000000_10101101 = some (.ldaAbs 0x4480) ∧
  decodeTableWord 24 0b01000100_11111111_10111101 = some (.ldaAbsX 0x44FF) ∧
  decodeTableWord 24 0b01000100_00000010_10111001 = some (.ldaAbsY 0x4402) ∧
  decodeTableWord 16 0b11111110_10100001 = some (.ldaIndX 0xFE) ∧
  decodeTableWord 16 0b00000010_10110001 = some (.ldaIndY 0x02) ∧
  decodeTableWord 24 0b10101011_11001101_00100000 = some (.jsrAbs 0xABCD) ∧
  decodeTableWord 8 0b11101010 = some (.unimplemented 0xEA)

/-! ### The step -/

/-- When the three bytes from PC on decode to an instruction, a step is `exec` of that instruction at that state (spec/40_engine_loop.md
R108, R110). That the bytes are decoded first and that `exec` itself passes and charges them, so that `step` adds nothing, is
the model's own split (DEDUCED, notes/assumptions/6.md); that the stream wraps modulo 65536 is the spec's decision D8
(notes/assumptions/10.md). -/
def Obligations.StepRunsDecodedInstruction : Prop :=
  ∀ (s : State) (i : Instr) (rest : List Byte),
    decode [s.readByte s.pc, s.readByte (s.pc + 1), s.readByte (s.pc + 2)] = .ok (i, rest) → step s = exec i s

/-- spec/40_engine_loop.md R108 and R110: on every state, the machine's decode-then-run step is the spec's pseudocode `Step()`,
which fetches each byte at the then-current PC, charges it, dispatches on the opcode byte and takes the unimplemented arm for
every other value. Its outcome is always a next state. That the two forms agree is what makes the decode-then-run split of
notes/assumptions/6.md safe. The arms equated carry the spec's decisions D2, D3 (notes/assumptions/1.md), D4 to D8 (10.md), D9, D17, D18 (11.md),
D23 (13.md) and D12 (14.md). -/
def Obligations.StepAgreesWithPseudocode : Prop :=
  ∀ s : State, step s = .next (Reference.step s)

/-- spec/40_engine_loop.md R105 and R106: `FetchByte` gives the byte at PC, charges one cycle and advances PC by one modulo
65536; `FetchWord` gives {high, low} from PC + 1 and PC, charges two and advances PC by two. Nothing else changes. -/
def Obligations.FetchReadsAtPcAndAdvances : Prop :=
  ∀ s : State,
    s.fetchByte = (s.readByte s.pc, { s with pc := s.pc + 1, cyc := s.cyc - 1 }) ∧
    (s.fetchWord).1.toNat = 256 * (s.readByte (s.pc + 1)).toNat + (s.readByte s.pc).toNat ∧
    (s.fetchWord).2 = { s with pc := s.pc + 2, cyc := s.cyc - 2 }

/-- spec/20_memory.md R66 and spec/30_encoding.md R90 (by the spec's decision D8 the stream wraps at 0xFFFF): bytes stored from
PC on are the bytes the next step decodes, at every PC. -/
def Obligations.StoredWordIsTheInstructionFetched : Prop :=
  ∀ (s : State) (nbits w : Nat) (i : Instr), decodeTableWord nbits w = some i →
    step (s.withFetchWord nbits w) = exec i (s.withFetchWord nbits w)

/-- spec/00_scope.md R9, spec/60_exceptions.md R191: every instruction answers a next state in every state: no fault, no
refusal; and so does every step. -/
def Obligations.EveryInstructionCompletes : Prop :=
  (∀ (i : Instr) (s : State), ∃ t, exec i s = .next t) ∧ (∀ s : State, ∃ t, step s = .next t)

/-- spec/40_engine_loop.md R114: every instruction charges the total of the cost table, 1 to 6 cycles, and completes whatever the
counter held. -/
def Obligations.EveryInstructionCostsItsTotal : Prop :=
  ∀ (i : Instr) (s : State), ∃ t, exec i s = .next t ∧
    t.cyc = s.cyc - (cycleCost i s : Int) ∧ 1 ≤ cycleCost i s ∧ cycleCost i s ≤ 6

/-- spec/10_state.md R25 (wrap by the spec's decision D8): after an instruction PC has advanced by its length modulo 65536, except
after JSR, which replaces it with the target. -/
def Obligations.PcAdvancesByLengthOrJumps : Prop :=
  ∀ (i : Instr) (s : State), ∃ t, exec i s = .next t ∧
    ((∃ target, i = .jsrAbs target ∧ t.pc = target) ∨
      ((∀ target, i ≠ .jsrAbs target) ∧ t.pc.toNat = (s.pc.toNat + i.size) % 65536))

/-- spec/20_memory.md R70 and spec/50_interfaces.md R171 (the place of internal cycles is the spec's decision D17): the sequence of
port cycles of an instruction has one cycle per cycle charged, and the memory after the instruction is what its writes, in
order, leave. -/
def Obligations.PortSequenceAccountsForCyclesAndStores : Prop :=
  ∀ (i : Instr) (s : State), ∃ t, exec i s = .next t ∧
    t.cyc = s.cyc - ((portCycles i s).length : Int) ∧ t.mem = replayPort s.mem (portCycles i s)

/-! ### LDA -/

/-- spec/42_lda.md R140: every LDA, whichever byte its mode loads (`loadedByte`, from R131), writes the loaded byte to A, sets Z iff it is zero and N iff its bit 7 is set (so never both),
and touches no other flag, not X, Y or SP, and no memory; the old value of A plays no part. -/
def Obligations.EveryLdaLoadsAndSetsZN : Prop :=
  ∀ (i : Instr) (s : State) (v : Byte), loadedByte i s = some v → ∃ t, exec i s = .next t ∧
    t.a = v ∧ (t.flags.z = true ↔ v = 0x00) ∧ (t.flags.n = true ↔ 128 ≤ v.toNat) ∧
    ¬ (t.flags.z = true ∧ t.flags.n = true) ∧
    t.flags.c = s.flags.c ∧ t.flags.i = s.flags.i ∧ t.flags.d = s.flags.d ∧ t.flags.b = s.flags.b ∧
    t.flags.u = s.flags.u ∧ t.flags.v = s.flags.v ∧
    t.x = s.x ∧ t.y = s.y ∧ t.sp = s.sp ∧ t.diag = s.diag ∧ (∀ r, t.readByte r = s.readByte r) ∧
    (∀ old : Byte, exec i { s with a := old } = .next t)

/-- spec/42_lda.md R141: LDA immediate, whole next state (2 bytes, 2 cycles); opcode byte 0xA9 runs it on the byte after. -/
def Obligations.LdaImmediateResult : Prop :=
  ∀ s : State,
    (∀ imm : Byte, exec (.ldaImm imm) s = .next { s with
      a := imm, flags := { s.flags with z := decide (imm = 0x00), n := imm.getLsbD 7 },
      pc := s.pc + 2, cyc := s.cyc - 2, phase := .fetchingOpcode }) ∧
    (s.readByte s.pc = 0xA9 → step s = exec (.ldaImm (s.readByte (s.pc + 1))) s)

/-- spec/42_lda.md R142: LDA zero-page, whole next state (2 bytes, 3 cycles); opcode byte 0xA5. -/
def Obligations.LdaZeroPageResult : Prop :=
  ∀ s : State,
    (∀ z v : Byte, s.readByte (zext16 z) = v → exec (.ldaZp z) s = .next { s with
      a := v, flags := { s.flags with z := decide (v = 0x00), n := v.getLsbD 7 },
      pc := s.pc + 2, cyc := s.cyc - 3, phase := .fetchingOpcode }) ∧
    (s.readByte s.pc = 0xA5 → step s = exec (.ldaZp (s.readByte (s.pc + 1))) s)

/-- spec/42_lda.md R143: LDA zero-page,X, whole next state (2 bytes, always 4 cycles); the data comes from `(z + X) mod 256`, inside
page 0 (R122; the spec's decision D4, directed by the source); opcode byte 0xB5. -/
def Obligations.LdaZeroPageXResult : Prop :=
  ∀ s : State,
    (∀ z v : Byte, s.readByte (zext16 (z + s.x)) = v → exec (.ldaZpX z) s = .next { s with
      a := v, flags := { s.flags with z := decide (v = 0x00), n := v.getLsbD 7 },
      pc := s.pc + 2, cyc := s.cyc - 4, phase := .fetchingOpcode }) ∧
    (s.readByte s.pc = 0xB5 → step s = exec (.ldaZpX (s.readByte (s.pc + 1))) s)

/-- spec/42_lda.md R144: LDA absolute, whole next state (3 bytes, 4 cycles); opcode byte 0xAD, operand {hi, lo}. -/
def Obligations.LdaAbsoluteResult : Prop :=
  ∀ s : State,
    (∀ (abs : Word) (v : Byte), s.readByte abs = v → exec (.ldaAbs abs) s = .next { s with
      a := v, flags := { s.flags with z := decide (v = 0x00), n := v.getLsbD 7 },
      pc := s.pc + 3, cyc := s.cyc - 4, phase := .fetchingOpcode }) ∧
    (s.readByte s.pc = 0xAD →
      step s = exec (.ldaAbs (joinBytes (s.readByte (s.pc + 2)) (s.readByte (s.pc + 1)))) s)

/-- spec/42_lda.md R145: LDA absolute,X, whole next state (3 bytes); data from `(abs + X) mod 65536` (wrap: the spec's decision D7);
4 cycles, or 5 when the low bytes carry, `lo(abs) + X >= 256` (R145's derived form of the page cross); opcode byte 0xBD. -/
def Obligations.LdaAbsoluteXResult : Prop :=
  ∀ s : State,
    (∀ (abs : Word) (v : Byte), s.readByte (abs + zext16 s.x) = v → exec (.ldaAbsX abs) s = .next { s with
      a := v, flags := { s.flags with z := decide (v = 0x00), n := v.getLsbD 7 },
      pc := s.pc + 3, cyc := s.cyc - (if 256 ≤ abs.toNat % 256 + s.x.toNat then 5 else 4), phase := .fetchingOpcode }) ∧
    (s.readByte s.pc = 0xBD →
      step s = exec (.ldaAbsX (joinBytes (s.readByte (s.pc + 2)) (s.readByte (s.pc + 1)))) s)

/-- spec/42_lda.md R146: LDA absolute,Y, as R145 with Y; opcode byte 0xB9. -/
def Obligations.LdaAbsoluteYResult : Prop :=
  ∀ s : State,
    (∀ (abs : Word) (v : Byte), s.readByte (abs + zext16 s.y) = v → exec (.ldaAbsY abs) s = .next { s with
      a := v, flags := { s.flags with z := decide (v = 0x00), n := v.getLsbD 7 },
      pc := s.pc + 3, cyc := s.cyc - (if 256 ≤ abs.toNat % 256 + s.y.toNat then 5 else 4), phase := .fetchingOpcode }) ∧
    (s.readByte s.pc = 0xB9 →
      step s = exec (.ldaAbsY (joinBytes (s.readByte (s.pc + 2)) (s.readByte (s.pc + 1)))) s)

/-- spec/42_lda.md R147: LDA (indirect,X), whole next state (2 bytes, always 6 cycles): the pointer's bytes are at `(z + X)` and
`(z + X) + 1`, both modulo 256 in page 0 (R129; the spec's decision D5); opcode byte 0xA1. -/
def Obligations.LdaIndirectXResult : Prop :=
  ∀ s : State,
    (∀ z lo hi v : Byte, s.readByte (zext16 (z + s.x)) = lo → s.readByte (zext16 (z + s.x + 1)) = hi →
      s.readByte (joinBytes hi lo) = v → exec (.ldaIndX z) s = .next { s with
        a := v, flags := { s.flags with z := decide (v = 0x00), n := v.getLsbD 7 },
        pc := s.pc + 2, cyc := s.cyc - 6, phase := .fetchingOpcode }) ∧
    (s.readByte s.pc = 0xA1 → step s = exec (.ldaIndX (s.readByte (s.pc + 1))) s)

/-- spec/42_lda.md R148: LDA (indirect),Y, whole next state (2 bytes): pointer at `z` in page 0 (wrap: the spec's decision D6), data
from `(pointer + Y) mod 65536` (D7); 5 cycles, or 6 when the pointer's low byte and Y carry; opcode byte 0xB1. -/
def Obligations.LdaIndirectYResult : Prop :=
  ∀ s : State,
    (∀ z lo hi v : Byte, s.readByte (zext16 z) = lo → s.readByte (zext16 (z + 1)) = hi →
      s.readByte (joinBytes hi lo + zext16 s.y) = v → exec (.ldaIndY z) s = .next { s with
        a := v, flags := { s.flags with z := decide (v = 0x00), n := v.getLsbD 7 },
        pc := s.pc + 2, cyc := s.cyc - (if 256 ≤ lo.toNat + s.y.toNat then 6 else 5), phase := .fetchingOpcode }) ∧
    (s.readByte s.pc = 0xB1 → step s = exec (.ldaIndY (s.readByte (s.pc + 1))) s)

/-! ### The addressing-mode resolver -/

/-- spec/41_addressing_modes.md R130: no resolver writes anything but PC and CYC; X and Y are unsigned offsets, added in 8 bits in the
zero-page modes and in 16 bits in the absolute ones, never sign-extended. The sums are R122, R124 and R125: modulo 256 by the
spec's decision D4, modulo 65536 by its D7 (notes/assumptions/10.md). -/
def Obligations.ResolversWriteOnlyPcAndCyc : Prop :=
  (∀ (b : Byte) (w : Word) (s : State) (r : State),
    r ∈ [(resolveImm b s).2, (resolveZp b s).2, (resolveZpX b s).2, (resolveAbs w s).2, (resolveAbsX w s).2,
      (resolveAbsY w s).2, (resolveIndX b s).2, (resolveIndY b s).2] → { r with pc := s.pc, cyc := s.cyc } = s) ∧
  (∀ (b : Byte) (w : Word) (s : State),
    (resolveZp b s).1.toNat = b.toNat ∧ (resolveZpX b s).1.toNat = (b.toNat + s.x.toNat) % 256 ∧
    (resolveAbsX w s).1.toNat = (w.toNat + s.x.toNat) % 65536 ∧
    (resolveAbsY w s).1.toNat = (w.toNat + s.y.toNat) % 65536)

/-- spec/41_addressing_modes.md R129 (the spec's decisions D5, D6): the pointer of the indirect modes comes from zero page only: two
memories that agree on 0x0000 to 0x00FF give the same effective address and the same charge. -/
def Obligations.IndirectPointerComesFromZeroPage : Prop :=
  ∀ (s : State) (m : Memory) (z : Byte), (∀ k, k < 256 → Memory.read m k = Memory.read s.mem k) →
    (resolveIndX z { s with mem := m }).1 = (resolveIndX z s).1 ∧
    (resolveIndX z { s with mem := m }).2.cyc = (resolveIndX z s).2.cyc ∧
    (resolveIndY z { s with mem := m }).1 = (resolveIndY z s).1 ∧
    (resolveIndY z { s with mem := m }).2.cyc = (resolveIndY z s).2.cyc

/-- spec/41_addressing_modes.md R128: the predicate says that the high bytes differ; for a base and an 8-bit index that is the carry
out of the low byte (R145's derived form), an index of 0 never crosses, and 0xFFFF with index 1 does. -/
def Obligations.PageCrossIsHighByteChange : Prop :=
  (∀ base eff : Word, pageCross base eff = true ↔ base.toNat / 256 ≠ eff.toNat / 256) ∧
  (∀ (base : Word) (index : Byte), pageCross base (base + zext16 index) = true ↔ 256 ≤ base.toNat % 256 + index.toNat) ∧
  (∀ base : Word, pageCross base (base + zext16 0) = false) ∧ pageCross 0xFFFF (0xFFFF + zext16 1) = true

/-! ### JSR and the stack -/

/-- spec/43_jsr.md R160, R161, R162 (stack page: the spec's decision D2; direction: D3; pushed value: D23): JSR jumps to the target, stores
the high byte of the opcode's address + 2 at the cell SP designates and the low byte at the cell below (SP modulo 256), lowers
SP by 2, costs 6 cycles, and leaves A, X, Y, every flag, the diagnostics and every other cell as they were. -/
def Obligations.JsrPushesReturnAddressAndJumps : Prop :=
  ∀ (s : State) (target : Word), ∃ t, exec (.jsrAbs target) s = .next t ∧
    t.pc = target ∧ t.sp = s.sp - 2 ∧ t.cyc = s.cyc - 6 ∧
    t.readByte (stackAddr s.sp) = hiByte (s.pc + 2) ∧ t.readByte (stackAddr (s.sp - 1)) = loByte (s.pc + 2) ∧
    (∀ r, r ≠ stackAddr s.sp → r ≠ stackAddr (s.sp - 1) → t.readByte r = s.readByte r) ∧
    t.a = s.a ∧ t.x = s.x ∧ t.y = s.y ∧ t.flags = s.flags ∧ t.diag = s.diag ∧ t.phase = .fetchingOpcode

/-- spec/43_jsr.md R160: opcode byte 0x20 runs JSR on the little-endian word after it, whatever that word is and wherever the opcode
stands (R90). -/
def Obligations.JsrOpcodeTakesTheWordAfterIt : Prop :=
  ∀ s : State, s.readByte s.pc = 0x20 →
    ∃ t, step s = .next t ∧ t.pc.toNat = 256 * (s.readByte (s.pc + 2)).toNat + (s.readByte (s.pc + 1)).toNat

/-- spec/43_jsr.md R160 "Little-endian order" and R163: when SP does not wrap between the pushes, the word at the lower of the two
cells is the address of the JSR's own last byte, found by the callee at 0x0100 + SP + 1, and the instruction after the JSR is at
that address plus one. (Stack page and direction: the spec's decisions D2, D3.) -/
def Obligations.JsrReturnWordIsLittleEndian : Prop :=
  ∀ (s : State) (target : Word), s.sp ≠ 0x00 → ∃ t, exec (.jsrAbs target) s = .next t ∧
    t.readWord (stackAddr (t.sp + 1)) = s.pc + 2 ∧
    t.readWord (stackAddr (t.sp + 1)) + 1 = s.pc + BitVec.ofNat 16 (Instr.jsrAbs target).size

/-- spec/43_jsr.md R160 corner case (a) and spec/10_state.md R24 (the spec's decisions D2, D3): with SP = 0x00 the pointer wraps between
the two pushes: high byte at 0x0100, low byte at 0x01FF, SP = 0xFE; nothing detects it. -/
def Obligations.JsrWrapsStackPointer : Prop :=
  ∀ (s : State) (target : Word), s.sp = 0x00 → ∃ t, exec (.jsrAbs target) s = .next t ∧
    t.sp = 0xFE ∧ t.readByte 0x0100 = hiByte (s.pc + 2) ∧ t.readByte 0x01FF = loByte (s.pc + 2)

/-- spec/10_state.md R24, spec/43_jsr.md R162 (stack page: the spec's decision D2): the cell SP designates is 0x0100 + SP, inside 0x0100 to
0x01FF for every SP. -/
def Obligations.StackCellsAreThePage : Prop :=
  (∀ sp : Byte, (stackAddr sp).toNat = 0x0100 + sp.toNat) ∧
  (∀ addr : Word, (∃ sp, stackAddr sp = addr) ↔ 0x0100 ≤ addr.toNat ∧ addr.toNat ≤ 0x01FF)

/-! ### Unimplemented opcodes -/

/-- spec/60_exceptions.md R190 (cost, length and payload: the spec's decision D12): any opcode byte other than the nine, as an
instruction and as met by a step: one cycle, PC + 1, one event with the opcode's address and the byte, and nothing else. -/
def Obligations.UnimplementedOpcodeResult : Prop :=
  (∀ (op : Byte) (s : State), exec (.unimplemented op) s = .next { s with
    pc := s.pc + 1, cyc := s.cyc - 1, phase := .fetchingOpcode, diag := s.diag ++ [{ addr := s.pc, op := op }] }) ∧
  (∀ s : State, s.readByte s.pc ∉ ([0xA9, 0xA5, 0xB5, 0xAD, 0xBD, 0xB9, 0xA1, 0xB1, 0x20] : List Byte) →
    step s = .next { s with
      pc := s.pc + 1, cyc := s.cyc - 1, phase := .fetchingOpcode,
      diag := s.diag ++ [{ addr := s.pc, op := s.readByte s.pc }] })

/-- spec/60_exceptions.md R190, R193, R203: a step is clean (emits no event) exactly when the opcode byte at PC is one of the nine; otherwise it
emits exactly one (R193 by the spec's decision D26, notes/assumptions/12.md), with the opcode's address and the byte (payload: its decision D12,
notes/assumptions/14.md), recorded in the model's own `diag` (notes/assumptions/4.md). -/
def Obligations.StepIsCleanIffImplemented : Prop :=
  ∀ s : State, ∃ t, step s = .next t ∧
    (cleanRun s t ↔ implementedOpcodes.contains (s.readByte s.pc) = true) ∧
    (¬ cleanRun s t → t.diag = s.diag ++ [{ addr := s.pc, op := s.readByte s.pc }])

/-! ### Whole-machine rules: what a step may write and what it may read -/

/-- spec/10_state.md R42, columns w (and R22, R23, R26 to R34): no step writes X, Y or the flags C, I, D, B, U, V; only an LDA opcode writes
A, Z or N; only JSR writes SP or memory; only an unimplemented opcode writes the diagnostics. -/
def Obligations.StepWritesOnlyListedState : Prop :=
  ∀ s : State, ∃ t, step s = .next t ∧
    t.x = s.x ∧ t.y = s.y ∧
    t.flags.c = s.flags.c ∧ t.flags.i = s.flags.i ∧ t.flags.d = s.flags.d ∧ t.flags.b = s.flags.b ∧
    t.flags.u = s.flags.u ∧ t.flags.v = s.flags.v ∧
    (s.readByte s.pc ∉ ([0xA9, 0xA5, 0xB5, 0xAD, 0xBD, 0xB9, 0xA1, 0xB1] : List Byte) →
      t.a = s.a ∧ t.flags.z = s.flags.z ∧ t.flags.n = s.flags.n) ∧
    (s.readByte s.pc ≠ 0x20 → t.sp = s.sp ∧ ∀ r, t.readByte r = s.readByte r) ∧
    (implementedOpcodes.contains (s.readByte s.pc) = true → t.diag = s.diag)

/-- spec/20_memory.md R66: the only store a program can make is JSR's push into the stack page: no step changes a cell outside 0x0100 to
0x01FF (the page number is the spec's decision D2). -/
def Obligations.StepStoresOnlyInStackPage : Prop :=
  ∀ s : State, ∃ t, step s = .next t ∧
    ∀ r : Word, r.toNat < 0x0100 ∨ 0x01FF < r.toNat → t.readByte r = s.readByte r

/-- spec/10_state.md R21, R26, R42: no instruction reads A or a flag. With any other A and flags before a step, an LDA opcode ends in the
same state, the same A, Z and N included, but for the six flags it does not write, which are as they were; every other opcode
ends in the same state but for A and the flags, which are as they were. -/
def Obligations.AccumulatorAndFlagsAreNeverRead : Prop :=
  ∀ (s : State) (a' : Byte) (f' : Flags), ∃ t u, step s = .next t ∧ step { s with a := a', flags := f' } = .next u ∧
    (s.readByte s.pc ∈ ([0xA9, 0xA5, 0xB5, 0xAD, 0xBD, 0xB9, 0xA1, 0xB1] : List Byte) →
      u = { t with flags := { f' with z := t.flags.z, n := t.flags.n } }) ∧
    (s.readByte s.pc ∉ ([0xA9, 0xA5, 0xB5, 0xAD, 0xBD, 0xB9, 0xA1, 0xB1] : List Byte) →
      u = { t with a := a', flags := f' })

/-- spec/10_state.md R22, R23, R24, R42, columns r: X is read by opcodes 0xB5, 0xBD, 0xA1 only, Y by 0xB9, 0xB1 only, SP by 0x20 only: any other
step does the same whatever they hold, and leaves them. -/
def Obligations.IndexAndStackPointerReadOnlyWhereListed : Prop :=
  ∀ (s : State) (v : Byte), ∃ t, step s = .next t ∧
    (s.readByte s.pc ∉ ([0xB5, 0xBD, 0xA1] : List Byte) → step { s with x := v } = .next { t with x := v }) ∧
    (s.readByte s.pc ∉ ([0xB9, 0xB1] : List Byte) → step { s with y := v } = .next { t with y := v }) ∧
    (s.readByte s.pc ≠ 0x20 → step { s with sp := v } = .next { t with sp := v })

/-- spec/40_engine_loop.md R107, R110 (`Tick` never stops an instruction): a step never reads CYC: with any other value in the counter it
does the same and charges the same. -/
def Obligations.StepNeverReadsTheCounter : Prop :=
  ∀ (s : State) (k : Int), ∃ t, step s = .next t ∧ step { s with cyc := s.cyc + k } = .next { t with cyc := t.cyc + k }

/-- spec/10_state.md R39, spec/50_interfaces.md R176: nothing the engine does depends on the events emitted before: a step appends the same
events (at most one) to whatever the output holds and does the same otherwise. (`diag` is the model's own record of the output,
notes/assumptions/4.md.) -/
def Obligations.StepNeverReadsTheDiagnostics : Prop :=
  ∀ s : State, ∃ t new, step s = .next t ∧ new.length ≤ 1 ∧ t.diag = s.diag ++ new ∧
    ∀ d, step { s with diag := d } = .next { t with diag := d ++ new }

/-- The invariant `State.Inv` of Safety.lean: every step from every state that meets it gives a state that meets it: `PHASE` is
`fetchingOpcode` between instructions (spec/10_state.md R38), Z and N are not both 1 (spec/42_lda.md R140), and the memory list keeps the canonical
form, which is the model's own DESIGN CHOICE and no rule of the spec (notes/assumptions/9.md). -/
def Obligations.StepKeepsTheInvariant : Prop :=
  ∀ s : State, s.Inv → ∃ t, step s = .next t ∧ t.Inv

/-- The state after reset meets `State.Inv`: the phase and flags by spec/10_state.md R40, and the canonical memory form, which is the
model's own DESIGN CHOICE (notes/assumptions/9.md). -/
def Obligations.ResetMeetsTheInvariant : Prop := State.reset.Inv

/-- spec/10_state.md R22, R23, R27, R29 to R33 (derived there), R38, spec/40_engine_loop.md R102: every idle state the host can bring the machine to from reset
meets `State.Inv`, has X = Y = 0 and C, I, D, B, U, V = 0, and CYC <= 0. `Reachable` starts at the first reset by the spec's decision
D21 (notes/assumptions/7.md); the canonical memory form in `State.Inv` is the model's own DESIGN CHOICE (notes/assumptions/9.md). -/
def Obligations.ReachableIdleStatesShape : Prop :=
  ∀ s : State, Reachable s → s.Inv ∧ s.x = 0x00 ∧ s.y = 0x00 ∧
    s.flags.c = false ∧ s.flags.i = false ∧ s.flags.d = false ∧ s.flags.b = false ∧ s.flags.u = false ∧
    s.flags.v = false ∧ s.cyc ≤ 0

/-- spec/10_state.md R22, R23, R26, R38, R42, spec/40_engine_loop.md R102: `State.Idle` of Safety.lean holds after reset, and every host command that answers
from a state that meets it gives a state that meets it: between commands X and Y and six flags stay 0, CYC is not positive, and
`State.Inv` holds (its canonical memory form is the model's own DESIGN CHOICE, notes/assumptions/9.md). -/
def Obligations.HostCommandKeepsTheIdleShape : Prop :=
  State.reset.Idle ∧
  ∀ (c : HostCommand) (s t : State) (r : HostReply), s.Idle → hostCommand c s = .next (t, r) → t.Idle

/-! ### Runs -/

/-- spec/40_engine_loop.md R104: a run with a budget of 0 or less executes no instruction: CYC is the budget and nothing else changes. -/
def Obligations.NonPositiveBudgetRunsNothing : Prop :=
  ∀ (n : Int) (s : State), n ≤ 0 → execute n s = .next { s with cyc := n }

/-- spec/40_engine_loop.md R103: a run with a positive budget ends with -5 <= CYC <= 0: the last instruction completes whatever it costs. The
bound is R103's derived one, from the totals of R114, which are the spec's decision D18 (notes/assumptions/11.md). -/
def Obligations.OverdrawIsAtMostFive : Prop :=
  ∀ (n : Int) (s : State), 0 < n → ∃ t, execute n s = .next t ∧ -5 ≤ t.cyc ∧ t.cyc ≤ 0

/-- spec/70_reset_and_hazards.md R216, spec/40_engine_loop.md R101, R102, R109: every run ends, and its end is the state after the least number k of steps from the
state with CYC loaded whose CYC is not positive; k is at most the budget. That every run ends and the bound on k are derived in
R109 and R216; that CYC is loaded is the spec's decision D10 (notes/assumptions/3.md). -/
def Obligations.RunEndsAtFirstNonPositiveBoundary : Prop :=
  ∀ (n : Int) (s : State), ∃ (k : Nat) (t : State), k ≤ n.toNat ∧ execute n s = .next t ∧
    core.run k ({ s with cyc := n } : State) = .next t ∧ t.cyc ≤ 0 ∧
    ∀ j, j < k → ∃ u : State, core.run j ({ s with cyc := n } : State) = .next u ∧ 0 < u.cyc

/-- spec/40_engine_loop.md R100, R113: for `0 <= n`, a run of `m + n` is a run of `m` followed by one whose budget carries the remainder of the first
(not by one of `n`: the second command forgives an overdraw). That `execute` loads CYC and does not add to it is the spec's
decision D10 (notes/assumptions/3.md). -/
def Obligations.RunSplitsWhenRemainderIsCarried : Prop :=
  ∀ (m n : Int) (s t : State), 0 ≤ n → execute m s = .next t → execute (m + n) s = execute (n + t.cyc) t

/-- spec/40_engine_loop.md R113 (derived there): two runs of positive budgets m and n are not in general one run of m + n, since the second
command forgives the first run's overdraw: CYC is loaded and not added to (the spec's decision D10, notes/assumptions/3.md). -/
def Obligations.TwoRunsMayDifferFromOne : Prop :=
  ∃ (m n : Int) (s t u w : State), 0 < m ∧ 0 < n ∧ execute m s = .next t ∧ execute n t = .next u ∧ execute (m + n) s = .next w ∧ u.pc ≠ w.pc

/-- spec/60_exceptions.md R201: `execute(1)` executes exactly one instruction. -/
def Obligations.BudgetOneRunsOneInstruction : Prop :=
  ∀ s : State, execute 1 s = step { s with cyc := 1 }

/-- spec/50_interfaces.md R176, spec/40_engine_loop.md R109: a run only appends events to the output, at most one per instruction and so at most its
budget, and the events do not depend on what the output held. (`diag` is the model's own record, notes/assumptions/4.md.) -/
def Obligations.RunAppendsItsEvents : Prop :=
  ∀ (n : Int) (s : State), ∃ t new, execute n s = .next t ∧ new.length ≤ n.toNat ∧ t.diag = s.diag ++ new ∧
    ∀ d, execute n { s with diag := d } = .next { t with diag := d ++ new }
end

