-- ==== Sys2Proof/Laws/Decode.lean ====
section
/-! SUPPORT. Sys2Proof/Laws/Decode.lean: the byte-order helpers undo each other, and the dispatch of an opcode byte as a
chain of nine tests (spec/30_encoding.md R82, R83, R84). -/

namespace Sys2Proof

@[simp] theorem loByte_joinBytes (h l : Byte) : loByte (joinBytes h l) = l := by
  apply BitVec.eq_of_toNat_eq
  simp only [loByte, joinBytes, BitVec.extractLsb'_toNat, BitVec.toNat_append]
  have hl := l.isLt
  rw [Nat.shiftRight_zero, ← Nat.shiftLeft_add_eq_or_of_lt hl, Nat.shiftLeft_eq]
  omega

@[simp] theorem hiByte_joinBytes (h l : Byte) : hiByte (joinBytes h l) = h := by
  apply BitVec.eq_of_toNat_eq
  simp only [hiByte, joinBytes, BitVec.extractLsb'_toNat, BitVec.toNat_append]
  have hl := l.isLt
  have hh := h.isLt
  rw [← Nat.shiftLeft_add_eq_or_of_lt hl, Nat.shiftLeft_eq, Nat.shiftRight_eq_div_pow]
  omega

theorem joinBytes_toNat (h l : Byte) : (joinBytes h l).toNat = 256 * h.toNat + l.toNat := by
  simp only [joinBytes, BitVec.toNat_append]
  rw [← Nat.shiftLeft_add_eq_or_of_lt l.isLt, Nat.shiftLeft_eq]
  omega

theorem loByte_toNat (w : Word) : (loByte w).toNat = w.toNat % 256 := by
  simp [loByte, BitVec.extractLsb'_toNat]

theorem hiByte_toNat (w : Word) : (hiByte w).toNat = w.toNat / 256 := by
  have hw := w.isLt
  simp only [hiByte, BitVec.extractLsb'_toNat, Nat.shiftRight_eq_div_pow]
  omega

theorem zext16_toNat (b : Byte) : (zext16 b).toNat = b.toNat := by
  have hb := b.isLt
  simp only [zext16, BitVec.toNat_setWidth]
  omega

@[simp] theorem joinBytes_hi_lo (w : Word) : joinBytes (hiByte w) (loByte w) = w := by
  apply BitVec.eq_of_toNat_eq
  rw [joinBytes_toNat, hiByte_toNat, loByte_toNat]
  omega

/-- The dispatch table read as nine tests on the whole opcode byte (R82). -/
theorem lookupOpcode_eq (op : Byte) : lookupOpcode op =
    if op = 0xA9 then some .ldaImm else if op = 0xA5 then some .ldaZp else if op = 0xB5 then some .ldaZpX
    else if op = 0xAD then some .ldaAbs else if op = 0xBD then some .ldaAbsX else if op = 0xB9 then some .ldaAbsY
    else if op = 0xA1 then some .ldaIndX else if op = 0xB1 then some .ldaIndY else if op = 0x20 then some .jsrAbs
    else none := rfl

/-- No two rows of the dispatch table share an opcode byte: decoding is unambiguous (R82). -/
theorem dispatchTable_distinct : dispatchTable.Pairwise (fun r q => r.1 ≠ q.1) := by decide

/-- An opcode byte is unimplemented in the table exactly when it is none of the nine (R85). -/
theorem lookupOpcode_none_iff (op : Byte) : lookupOpcode op = none ↔ implementedOpcodes.contains op = false := by
  revert op
  decide

/-- Everything the decoder can answer, by the opcode byte (R84, R85, R108). -/
theorem decodeInstr_eq (op b1 b2 : Byte) : decodeInstr op b1 b2 =
    if op = 0xA9 then .ldaImm b1 else if op = 0xA5 then .ldaZp b1 else if op = 0xB5 then .ldaZpX b1
    else if op = 0xAD then .ldaAbs (joinBytes b2 b1) else if op = 0xBD then .ldaAbsX (joinBytes b2 b1)
    else if op = 0xB9 then .ldaAbsY (joinBytes b2 b1) else if op = 0xA1 then .ldaIndX b1
    else if op = 0xB1 then .ldaIndY b1 else if op = 0x20 then .jsrAbs (joinBytes b2 b1)
    else .unimplemented op := by
  unfold decodeInstr
  rw [lookupOpcode_eq]
  split_ifs <;> rfl

end Sys2Proof
end

