-- ==== Sys2Proof/Laws/Memory.lean ====
section
/-! SUPPORT. Sys2Proof/Laws/Memory.lean: the laws of the memory array (spec/20_memory.md R51, R52): what a read after a write
gives, on every memory, and that every memory operation keeps the canonical form. -/

namespace Sys2Proof.Machine

theorem Memory.read_erase_same (m : Memory) (k : Nat) : Memory.read (Memory.erase m k) k = Memory.unlisted := by
  induction m with
  | nil => rfl
  | cons cell rest ih =>
    obtain ⟨key, v⟩ := cell
    by_cases h : key = k
    · simpa [Memory.erase, h] using ih
    · simpa [Memory.erase, h, Memory.read] using ih

theorem Memory.read_erase_other (m : Memory) {k j : Nat} (hj : j ≠ k) :
    Memory.read (Memory.erase m k) j = Memory.read m j := by
  induction m with
  | nil => rfl
  | cons cell rest ih =>
    obtain ⟨key, v⟩ := cell
    by_cases h : key = k
    · have hne : key ≠ j := fun e => hj (e.symm.trans h)
      simpa [Memory.erase, h, Memory.read, hne, h ▸ hne] using ih
    · by_cases hkj : key = j
      · simp [Memory.erase, Memory.read, hkj, hj]
      · simpa [Memory.erase, h, Memory.read, hkj] using ih

theorem Memory.read_insert_same (m : Memory) (k : Nat) (v : Byte) (hm : ∀ cell ∈ m, cell.1 ≠ k) :
    Memory.read (Memory.insert m k v) k = v := by
  induction m with
  | nil => simp [Memory.insert, Memory.read]
  | cons cell rest ih =>
    obtain ⟨key, w⟩ := cell
    have hkey : key ≠ k := hm (key, w) (by simp)
    have hrest : ∀ cell ∈ rest, cell.1 ≠ k := fun c hc => hm c (by simp [hc])
    by_cases h : k < key
    · simp [Memory.insert, h, Memory.read]
    · simpa [Memory.insert, h, Memory.read, hkey] using ih hrest

theorem Memory.read_insert_other (m : Memory) {k j : Nat} (v : Byte) (hj : j ≠ k) :
    Memory.read (Memory.insert m k v) j = Memory.read m j := by
  induction m with
  | nil => simp [Memory.insert, Memory.read, hj.symm]
  | cons cell rest ih =>
    obtain ⟨key, w⟩ := cell
    by_cases h : k < key
    · simp [Memory.insert, h, Memory.read, hj.symm]
    · by_cases hkj : key = j
      · subst hkj
        simp [Memory.insert, h, Memory.read]
      · simpa [Memory.insert, h, Memory.read, hkj] using ih

theorem Memory.erase_ne (m : Memory) (k : Nat) : ∀ cell ∈ Memory.erase m k, cell.1 ≠ k := by
  intro cell hc
  simpa using (List.mem_filter.mp hc).2

/-- A read of the address just written gives the byte written, on every memory (R52). -/
theorem Memory.read_write_same (m : Memory) (k : Nat) (v : Byte) : Memory.read (Memory.write m k v) k = v := by
  unfold Memory.write
  split
  · rename_i h
    rw [Memory.read_erase_same, h]
  · exact Memory.read_insert_same _ _ _ (Memory.erase_ne m k)

/-- Every other cell is unchanged, on every memory (R52). -/
theorem Memory.read_write_other (m : Memory) {k j : Nat} (v : Byte) (hj : j ≠ k) :
    Memory.read (Memory.write m k v) j = Memory.read m j := by
  unfold Memory.write
  split
  · exact Memory.read_erase_other m hj
  · rw [Memory.read_insert_other _ v hj, Memory.read_erase_other m hj]

/-! ### The canonical form -/

theorem Memory.wfFrom_cons (lo k : Nat) (v : Byte) (rest : Memory) :
    Memory.wfFrom lo ((k, v) :: rest) = true ↔
      lo ≤ k ∧ k < Config.memSize ∧ v ≠ Memory.unlisted ∧ Memory.wfFrom (k + 1) rest = true := by
  simp [Memory.wfFrom, and_assoc]

theorem Memory.wfFrom_mono (m : Memory) {lo lo' : Nat} (h : lo ≤ lo') (hm : Memory.wfFrom lo' m = true) :
    Memory.wfFrom lo m = true := by
  cases m with
  | nil => rfl
  | cons cell rest =>
    obtain ⟨key, v⟩ := cell
    rw [Memory.wfFrom_cons] at hm ⊢
    exact ⟨h.trans hm.1, hm.2⟩

theorem Memory.wfFrom_erase (m : Memory) (lo k : Nat) (hm : Memory.wfFrom lo m = true) :
    Memory.wfFrom lo (Memory.erase m k) = true := by
  induction m generalizing lo with
  | nil => rfl
  | cons cell rest ih =>
    obtain ⟨key, v⟩ := cell
    rw [Memory.wfFrom_cons] at hm
    obtain ⟨hlo, hsize, hv, hrest⟩ := hm
    by_cases h : key = k
    · have := Memory.wfFrom_mono _ (by omega : lo ≤ key + 1) (ih _ hrest)
      simpa [Memory.erase, h] using this
    · have heq : Memory.erase ((key, v) :: rest) k = (key, v) :: Memory.erase rest k := by
        simp [Memory.erase, h]
      rw [heq, Memory.wfFrom_cons]
      exact ⟨hlo, hsize, hv, ih _ hrest⟩

theorem Memory.wfFrom_insert (m : Memory) (lo k : Nat) (v : Byte) (hm : Memory.wfFrom lo m = true)
    (hk : ∀ cell ∈ m, cell.1 ≠ k) (hlo : lo ≤ k) (hsize : k < Config.memSize) (hv : v ≠ Memory.unlisted) :
    Memory.wfFrom lo (Memory.insert m k v) = true := by
  induction m generalizing lo with
  | nil =>
    rw [Memory.insert, Memory.wfFrom_cons]
    exact ⟨hlo, hsize, hv, rfl⟩
  | cons cell rest ih =>
    obtain ⟨key, w⟩ := cell
    have hkey : key ≠ k := hk (key, w) (by simp)
    rw [Memory.wfFrom_cons] at hm
    unfold Memory.insert
    split
    · rename_i h
      rw [Memory.wfFrom_cons, Memory.wfFrom_cons]
      exact ⟨hlo, hsize, hv, h, hm.2⟩
    · rw [Memory.wfFrom_cons]
      exact ⟨hm.1, hm.2.1, hm.2.2.1, ih _ hm.2.2.2 (fun c hc => hk c (by simp [hc])) (by omega)⟩

/-- Every write inside the address space keeps the canonical form. -/
theorem Memory.wf_write (m : Memory) (k : Nat) (v : Byte) (hm : Memory.wf m = true) (hk : k < Config.memSize) :
    Memory.wf (Memory.write m k v) = true := by
  unfold Memory.write
  split
  · exact Memory.wfFrom_erase m 0 k hm
  · rename_i hv
    exact Memory.wfFrom_insert _ 0 k v (Memory.wfFrom_erase m 0 k hm) (Memory.erase_ne m k) (Nat.zero_le k) hk hv

/-- The reset memory is in canonical form (R56). -/
theorem Memory.wf_reset : Memory.wf State.reset.mem = true := rfl

/-- Every address of the machine is inside the address space (R50). -/
theorem addr_lt_memSize (addr : Word) : addr.toNat < Config.memSize := addr.isLt

/-! ### The same at the state's byte operations -/

theorem State.readByte_writeByte_same (s : State) (addr : Word) (v : Byte) :
    (s.writeByte addr v).readByte addr = v := Memory.read_write_same _ _ _

theorem State.readByte_writeByte_other (s : State) {addr r : Word} (v : Byte) (h : r ≠ addr) :
    (s.writeByte addr v).readByte r = s.readByte r :=
  Memory.read_write_other _ _ fun e => h (BitVec.eq_of_toNat_eq e)

theorem State.writeByte_mem_wf (s : State) (addr : Word) (v : Byte) (h : Memory.wf s.mem = true) :
    Memory.wf (s.writeByte addr v).mem = true := Memory.wf_write _ _ _ h (addr_lt_memSize addr)

end Sys2Proof.Machine
end

