-- ==== Sys2Proof/Laws/State.lean ====
section
/-! SUPPORT. Sys2Proof/Laws/State.lean: what each named update does to each field of State, one lemma per field per update,
so that no later proof unfolds a record update. -/

namespace Sys2Proof.Machine

/-! ### `Tick(k)` (R107) -/

@[simp] theorem State.tick_a (s : State) (k : Nat) : (s.tick k).a = s.a := rfl
@[simp] theorem State.tick_x (s : State) (k : Nat) : (s.tick k).x = s.x := rfl
@[simp] theorem State.tick_y (s : State) (k : Nat) : (s.tick k).y = s.y := rfl
@[simp] theorem State.tick_sp (s : State) (k : Nat) : (s.tick k).sp = s.sp := rfl
@[simp] theorem State.tick_pc (s : State) (k : Nat) : (s.tick k).pc = s.pc := rfl
@[simp] theorem State.tick_flags (s : State) (k : Nat) : (s.tick k).flags = s.flags := rfl
@[simp] theorem State.tick_cyc (s : State) (k : Nat) : (s.tick k).cyc = s.cyc - (k : Int) := rfl
@[simp] theorem State.tick_mem (s : State) (k : Nat) : (s.tick k).mem = s.mem := rfl
@[simp] theorem State.tick_phase (s : State) (k : Nat) : (s.tick k).phase = s.phase := rfl
@[simp] theorem State.tick_diag (s : State) (k : Nat) : (s.tick k).diag = s.diag := rfl

/-! ### what `FetchByte` does to the state (R105) -/

@[simp] theorem State.passByte_a (s : State) : (s.passByte).a = s.a := rfl
@[simp] theorem State.passByte_x (s : State) : (s.passByte).x = s.x := rfl
@[simp] theorem State.passByte_y (s : State) : (s.passByte).y = s.y := rfl
@[simp] theorem State.passByte_sp (s : State) : (s.passByte).sp = s.sp := rfl
@[simp] theorem State.passByte_pc (s : State) : (s.passByte).pc = s.pc + 1 := rfl
@[simp] theorem State.passByte_flags (s : State) : (s.passByte).flags = s.flags := rfl
@[simp] theorem State.passByte_cyc (s : State) : (s.passByte).cyc = s.cyc - 1 := rfl
@[simp] theorem State.passByte_mem (s : State) : (s.passByte).mem = s.mem := rfl
@[simp] theorem State.passByte_phase (s : State) : (s.passByte).phase = s.phase := rfl
@[simp] theorem State.passByte_diag (s : State) : (s.passByte).diag = s.diag := rfl

/-! ### entering a phase (R111) -/

@[simp] theorem State.enter_a (s : State) (p : Phase) : (s.enter p).a = s.a := rfl
@[simp] theorem State.enter_x (s : State) (p : Phase) : (s.enter p).x = s.x := rfl
@[simp] theorem State.enter_y (s : State) (p : Phase) : (s.enter p).y = s.y := rfl
@[simp] theorem State.enter_sp (s : State) (p : Phase) : (s.enter p).sp = s.sp := rfl
@[simp] theorem State.enter_pc (s : State) (p : Phase) : (s.enter p).pc = s.pc := rfl
@[simp] theorem State.enter_flags (s : State) (p : Phase) : (s.enter p).flags = s.flags := rfl
@[simp] theorem State.enter_cyc (s : State) (p : Phase) : (s.enter p).cyc = s.cyc := rfl
@[simp] theorem State.enter_mem (s : State) (p : Phase) : (s.enter p).mem = s.mem := rfl
@[simp] theorem State.enter_phase (s : State) (p : Phase) : (s.enter p).phase = p := rfl
@[simp] theorem State.enter_diag (s : State) (p : Phase) : (s.enter p).diag = s.diag := rfl

/-! ### `MemWrite` (R52) -/

@[simp] theorem State.writeByte_a (s : State) (addr : Word) (v : Byte) : (s.writeByte addr v).a = s.a := rfl
@[simp] theorem State.writeByte_x (s : State) (addr : Word) (v : Byte) : (s.writeByte addr v).x = s.x := rfl
@[simp] theorem State.writeByte_y (s : State) (addr : Word) (v : Byte) : (s.writeByte addr v).y = s.y := rfl
@[simp] theorem State.writeByte_sp (s : State) (addr : Word) (v : Byte) : (s.writeByte addr v).sp = s.sp := rfl
@[simp] theorem State.writeByte_pc (s : State) (addr : Word) (v : Byte) : (s.writeByte addr v).pc = s.pc := rfl
@[simp] theorem State.writeByte_flags (s : State) (addr : Word) (v : Byte) : (s.writeByte addr v).flags = s.flags := rfl
@[simp] theorem State.writeByte_cyc (s : State) (addr : Word) (v : Byte) : (s.writeByte addr v).cyc = s.cyc := rfl
@[simp] theorem State.writeByte_mem (s : State) (addr : Word) (v : Byte) : (s.writeByte addr v).mem = Memory.write s.mem addr.toNat v := rfl
@[simp] theorem State.writeByte_phase (s : State) (addr : Word) (v : Byte) : (s.writeByte addr v).phase = s.phase := rfl
@[simp] theorem State.writeByte_diag (s : State) (addr : Word) (v : Byte) : (s.writeByte addr v).diag = s.diag := rfl

/-! ### `WriteC` (R107) -/

@[simp] theorem State.writeC_a (s : State) (addr : Word) (v : Byte) : (s.writeC addr v).a = s.a := rfl
@[simp] theorem State.writeC_x (s : State) (addr : Word) (v : Byte) : (s.writeC addr v).x = s.x := rfl
@[simp] theorem State.writeC_y (s : State) (addr : Word) (v : Byte) : (s.writeC addr v).y = s.y := rfl
@[simp] theorem State.writeC_sp (s : State) (addr : Word) (v : Byte) : (s.writeC addr v).sp = s.sp := rfl
@[simp] theorem State.writeC_pc (s : State) (addr : Word) (v : Byte) : (s.writeC addr v).pc = s.pc := rfl
@[simp] theorem State.writeC_flags (s : State) (addr : Word) (v : Byte) : (s.writeC addr v).flags = s.flags := rfl
@[simp] theorem State.writeC_cyc (s : State) (addr : Word) (v : Byte) : (s.writeC addr v).cyc = s.cyc - 1 := rfl
@[simp] theorem State.writeC_mem (s : State) (addr : Word) (v : Byte) : (s.writeC addr v).mem = Memory.write s.mem addr.toNat v := rfl
@[simp] theorem State.writeC_phase (s : State) (addr : Word) (v : Byte) : (s.writeC addr v).phase = s.phase := rfl
@[simp] theorem State.writeC_diag (s : State) (addr : Word) (v : Byte) : (s.writeC addr v).diag = s.diag := rfl

/-! ### `Push` (R161) -/

@[simp] theorem State.push_a (s : State) (v : Byte) : (s.push v).a = s.a := rfl
@[simp] theorem State.push_x (s : State) (v : Byte) : (s.push v).x = s.x := rfl
@[simp] theorem State.push_y (s : State) (v : Byte) : (s.push v).y = s.y := rfl
@[simp] theorem State.push_sp (s : State) (v : Byte) : (s.push v).sp = s.sp - 1 := rfl
@[simp] theorem State.push_pc (s : State) (v : Byte) : (s.push v).pc = s.pc := rfl
@[simp] theorem State.push_flags (s : State) (v : Byte) : (s.push v).flags = s.flags := rfl
@[simp] theorem State.push_cyc (s : State) (v : Byte) : (s.push v).cyc = s.cyc - 1 := rfl
@[simp] theorem State.push_mem (s : State) (v : Byte) : (s.push v).mem = Memory.write s.mem (stackAddr s.sp).toNat v := rfl
@[simp] theorem State.push_phase (s : State) (v : Byte) : (s.push v).phase = s.phase := rfl
@[simp] theorem State.push_diag (s : State) (v : Byte) : (s.push v).diag = s.diag := rfl

/-! ### the diagnostic (R190) -/

@[simp] theorem State.emitUnimplemented_a (s : State) (addr : Word) (op : Byte) : (s.emitUnimplemented addr op).a = s.a := rfl
@[simp] theorem State.emitUnimplemented_x (s : State) (addr : Word) (op : Byte) : (s.emitUnimplemented addr op).x = s.x := rfl
@[simp] theorem State.emitUnimplemented_y (s : State) (addr : Word) (op : Byte) : (s.emitUnimplemented addr op).y = s.y := rfl
@[simp] theorem State.emitUnimplemented_sp (s : State) (addr : Word) (op : Byte) : (s.emitUnimplemented addr op).sp = s.sp := rfl
@[simp] theorem State.emitUnimplemented_pc (s : State) (addr : Word) (op : Byte) : (s.emitUnimplemented addr op).pc = s.pc := rfl
@[simp] theorem State.emitUnimplemented_flags (s : State) (addr : Word) (op : Byte) : (s.emitUnimplemented addr op).flags = s.flags := rfl
@[simp] theorem State.emitUnimplemented_cyc (s : State) (addr : Word) (op : Byte) : (s.emitUnimplemented addr op).cyc = s.cyc := rfl
@[simp] theorem State.emitUnimplemented_mem (s : State) (addr : Word) (op : Byte) : (s.emitUnimplemented addr op).mem = s.mem := rfl
@[simp] theorem State.emitUnimplemented_phase (s : State) (addr : Word) (op : Byte) : (s.emitUnimplemented addr op).phase = s.phase := rfl
@[simp] theorem State.emitUnimplemented_diag (s : State) (addr : Word) (op : Byte) : (s.emitUnimplemented addr op).diag = s.diag ++ [{ addr := addr, op := op }] := rfl

/-! ### `A <- v; SetZN(v)` (R140) -/

@[simp] theorem State.loadA_a (s : State) (v : Byte) : (s.loadA v).a = v := rfl
@[simp] theorem State.loadA_x (s : State) (v : Byte) : (s.loadA v).x = s.x := rfl
@[simp] theorem State.loadA_y (s : State) (v : Byte) : (s.loadA v).y = s.y := rfl
@[simp] theorem State.loadA_sp (s : State) (v : Byte) : (s.loadA v).sp = s.sp := rfl
@[simp] theorem State.loadA_pc (s : State) (v : Byte) : (s.loadA v).pc = s.pc := rfl
@[simp] theorem State.loadA_flags (s : State) (v : Byte) : (s.loadA v).flags = s.flags.setZN v := rfl
@[simp] theorem State.loadA_cyc (s : State) (v : Byte) : (s.loadA v).cyc = s.cyc := rfl
@[simp] theorem State.loadA_mem (s : State) (v : Byte) : (s.loadA v).mem = s.mem := rfl
@[simp] theorem State.loadA_phase (s : State) (v : Byte) : (s.loadA v).phase = s.phase := rfl
@[simp] theorem State.loadA_diag (s : State) (v : Byte) : (s.loadA v).diag = s.diag := rfl

/-! ### Reading one byte after an update that leaves the memory alone -/

@[simp] theorem State.tick_readByte (s : State) (k : Nat) (r : Word) : (s.tick k).readByte r = s.readByte r := rfl
@[simp] theorem State.passByte_readByte (s : State) (r : Word) : (s.passByte).readByte r = s.readByte r := rfl
@[simp] theorem State.enter_readByte (s : State) (p : Phase) (r : Word) : (s.enter p).readByte r = s.readByte r := rfl
@[simp] theorem State.emitUnimplemented_readByte (s : State) (addr : Word) (op : Byte) (r : Word) : (s.emitUnimplemented addr op).readByte r = s.readByte r := rfl
@[simp] theorem State.loadA_readByte (s : State) (v : Byte) (r : Word) : (s.loadA v).readByte r = s.readByte r := rfl

/-! ### SetZN (R140) -/

@[simp] theorem Flags.setZN_z (f : Flags) (v : Byte) : (f.setZN v).z = (v == 0x00) := rfl
@[simp] theorem Flags.setZN_n (f : Flags) (v : Byte) : (f.setZN v).n = v.getLsbD 7 := rfl
@[simp] theorem Flags.setZN_c (f : Flags) (v : Byte) : (f.setZN v).c = f.c := rfl
@[simp] theorem Flags.setZN_i (f : Flags) (v : Byte) : (f.setZN v).i = f.i := rfl
@[simp] theorem Flags.setZN_d (f : Flags) (v : Byte) : (f.setZN v).d = f.d := rfl
@[simp] theorem Flags.setZN_b (f : Flags) (v : Byte) : (f.setZN v).b = f.b := rfl
@[simp] theorem Flags.setZN_u (f : Flags) (v : Byte) : (f.setZN v).u = f.u := rfl
@[simp] theorem Flags.setZN_v (f : Flags) (v : Byte) : (f.setZN v).v = f.v := rfl

end Sys2Proof.Machine
end

