-- ==== Sys2Proof/Laws/Ops.lean ====
section
/-! SUPPORT. Sys2Proof/Laws/Ops.lean: each shared operation said once, as one record update of the state it starts from;
proofs cite these instead of unfolding the operations. -/

namespace Sys2Proof.Machine

theorem State.passOpcode_eq (s : State) : s.passOpcode =
    { s with pc := s.pc + 1, cyc := s.cyc - 1, phase := .resolvingAddress } := rfl

theorem State.passWord_eq (s : State) : s.passWord = { s with pc := s.pc + 2, cyc := s.cyc - 2 } := by
  simp only [State.passWord, State.passByte, State.tick, Config.costByteAccess]
  congr 1
  · bv_omega
  · omega

theorem State.fetchWord_eq (s : State) : s.fetchWord =
    (joinBytes (s.readByte (s.pc + 1)) (s.readByte s.pc), { s with pc := s.pc + 2, cyc := s.cyc - 2 }) :=
  Prod.ext rfl (State.passWord_eq s)

theorem State.readC_eq (s : State) (addr : Word) : s.readC addr = (s.readByte addr, { s with cyc := s.cyc - 1 }) := rfl

theorem State.readPtrZP_eq (s : State) (z : Byte) : s.readPtrZP z =
    (joinBytes (s.readByte (zext16 (z + 1))) (s.readByte (zext16 z)), { s with cyc := s.cyc - 2 }) := by
  refine Prod.ext rfl ?_
  simp only [State.readPtrZP, State.readC, State.tick, Config.costByteAccess]
  congr 1
  omega

/-- The page-cross penalty as a number of cycles: nothing else can change. -/
theorem State.tickOnCross_eq (s : State) (base eff : Word) : s.tickOnCross base eff =
    { s with cyc := s.cyc - if pageCross base eff then 1 else 0 } := by
  unfold State.tickOnCross
  split
  · rfl
  · simp

/-- The data read, the load and the end of an LDA with an address: A, Z, N, one cycle, the phase; nothing else. -/
theorem loadFrom_eq (ea : Word) (s : State) : loadFrom (ea, s) =
    { s with a := s.readByte ea, flags := s.flags.setZN (s.readByte ea), cyc := s.cyc - 1, phase := .fetchingOpcode } := rfl

/-- `PageCross` says that the high bytes differ (R128). -/
theorem pageCross_eq_hiByte (base eff : Word) : pageCross base eff = (hiByte base != hiByte eff) := by
  have key : (base ^^^ eff) >>> 8 = 0 ↔ hiByte base = hiByte eff := by
    constructor
    · intro h
      apply BitVec.eq_of_getLsbD_eq
      intro i hi
      have := congrArg (fun w : Word => w.getLsbD i) h
      simp only [BitVec.getLsbD_ushiftRight, BitVec.getLsbD_xor] at this
      simp only [hiByte, BitVec.getLsbD_extractLsb', hi, decide_true, Bool.true_and]
      simpa using this
    · intro h
      apply BitVec.eq_of_getLsbD_eq
      intro i hi
      have := congrArg (fun b : Byte => b.getLsbD i) h
      simp only [hiByte, BitVec.getLsbD_extractLsb'] at this
      simp only [BitVec.getLsbD_ushiftRight, BitVec.getLsbD_xor]
      by_cases hlt : i < 8
      · simpa [hlt] using this
      · have h1 := BitVec.getLsbD_of_ge base (8 + i) (by omega)
        have h2 := BitVec.getLsbD_of_ge eff (8 + i) (by omega)
        simp [h1, h2]
  rw [Bool.eq_iff_iff]
  simp only [pageCross, bne_iff_ne, ne_eq]
  exact not_congr key

end Sys2Proof.Machine
end

