-- ==== Sys2Proof/Laws/Operands.lean ====
section
/-! SUPPORT. Sys2Proof/Laws/Operands.lean: each resolver said once: the address it returns, read in the state it starts from, and
the bytes it passes and the cycles it charges (spec/41_addressing_modes.md R120 to R127). -/

namespace Sys2Proof.Machine

theorem resolveImm_eq (imm : Byte) (s : State) : resolveImm imm s =
    (imm, { s with pc := s.pc + 1, cyc := s.cyc - 1 }) := rfl

theorem resolveZp_eq (z : Byte) (s : State) : resolveZp z s =
    (zext16 z, { s with pc := s.pc + 1, cyc := s.cyc - 1 }) := rfl

theorem resolveZpX_eq (z : Byte) (s : State) : resolveZpX z s =
    (zext16 (z + s.x), { s with pc := s.pc + 1, cyc := s.cyc - 2 }) := by
  refine Prod.ext rfl ?_
  simp only [resolveZpX, State.passByte, State.tick, Config.costByteAccess]
  congr 1
  omega

theorem resolveAbs_eq (abs : Word) (s : State) : resolveAbs abs s =
    (abs, { s with pc := s.pc + 2, cyc := s.cyc - 2 }) := by
  rw [resolveAbs, State.passWord_eq]

theorem resolveAbsX_eq (abs : Word) (s : State) : resolveAbsX abs s =
    (abs + zext16 s.x,
      { s with pc := s.pc + 2, cyc := s.cyc - 2 - if pageCross abs (abs + zext16 s.x) then 1 else 0 }) := by
  simp only [resolveAbsX, State.passWord_eq, State.tickOnCross_eq]

theorem resolveAbsY_eq (abs : Word) (s : State) : resolveAbsY abs s =
    (abs + zext16 s.y,
      { s with pc := s.pc + 2, cyc := s.cyc - 2 - if pageCross abs (abs + zext16 s.y) then 1 else 0 }) := by
  simp only [resolveAbsY, State.passWord_eq, State.tickOnCross_eq]

theorem State.readPtrZP_pointerAt (s : State) (z : Byte) :
    s.readPtrZP z = (s.pointerAt z, { s with cyc := s.cyc - 2 }) := State.readPtrZP_eq s z

theorem resolveIndX_eq (z : Byte) (s : State) : resolveIndX z s =
    (s.pointerAt (z + s.x), { s with pc := s.pc + 1, cyc := s.cyc - 4 }) := by
  simp only [resolveIndX, State.readPtrZP_pointerAt]
  refine Prod.ext rfl ?_
  simp only [State.passByte, State.tick, Config.costByteAccess]
  congr 1
  omega

theorem resolveIndY_eq (z : Byte) (s : State) : resolveIndY z s =
    (s.pointerAt z + zext16 s.y,
      { s with
        pc := s.pc + 1
        cyc := s.cyc - 3 - if pageCross (s.pointerAt z) (s.pointerAt z + zext16 s.y) then 1 else 0 }) := by
  have hp : s.passByte.pointerAt z = s.pointerAt z := rfl
  simp only [resolveIndY, State.readPtrZP_pointerAt, State.tickOnCross_eq, hp]
  rw [← (by omega : s.cyc - 1 - 2 = s.cyc - 3)]
  rfl

/-- `Push(b)`: one cell, SP and one cycle; nothing else (R161). -/
theorem State.push_eq (s : State) (v : Byte) : s.push v =
    { s with mem := Memory.write s.mem (stackAddr s.sp).toNat v, cyc := s.cyc - 1, sp := s.sp - 1 } := rfl

/-- A read after a push: the byte pushed at the cell SP designated, every other cell as before (R161). -/
theorem State.readByte_push (s : State) (v : Byte) (r : Word) :
    (s.push v).readByte r = if r = stackAddr s.sp then v else s.readByte r := by
  change (s.writeByte (stackAddr s.sp) v).readByte r = _
  split
  · rename_i h
    rw [h, State.readByte_writeByte_same]
  · rename_i h
    exact State.readByte_writeByte_other s v h

/-- The stack page is not left: the cell SP designates is 0x0100 + SP (R162). -/
theorem stackAddr_toNat (sp : Byte) : (stackAddr sp).toNat = 256 + sp.toNat := by
  have h := sp.isLt
  have hp : (0x0100 : Word).toNat = 256 := rfl
  rw [stackAddr, Config.stackPage, BitVec.toNat_add, zext16_toNat, hp]
  omega

end Sys2Proof.Machine
end

