-- ==== Sys2Proof/Laws/Meanings.lean ====
section
/-! SUPPORT. Sys2Proof/Laws/Meanings.lean: the whole next state of each meaning as one record update, and a step as the meaning
of the decoded bytes; proofs about instructions cite these and unfold no meaning. -/

namespace Sys2Proof.Machine

theorem State.fetchedInstr_eq (s : State) :
    s.fetchedInstr = decodeInstr (s.readByte s.pc) (s.readByte (s.pc + 1)) (s.readByte (s.pc + 2)) := by
  have h : s.pc + 0 = s.pc := by bv_omega
  simp only [State.fetchedInstr, State.streamByte, h]

theorem step_eq_exec (s : State) :
    step s = exec (decodeInstr (s.readByte s.pc) (s.readByte (s.pc + 1)) (s.readByte (s.pc + 2))) s := by
  rw [step, State.fetchedInstr_eq]

theorem exec_ldaImm_eq (imm : Byte) (s : State) : exec (.ldaImm imm) s = .next { s with
    a := imm, flags := s.flags.setZN imm, pc := s.pc + 2, cyc := s.cyc - 2, phase := .fetchingOpcode } := by
  have hpc : s.pc + 1 + 1 = s.pc + 2 := by bv_omega
  have hcyc : s.cyc - 1 - 1 = s.cyc - 2 := by omega
  rw [← hpc, ← hcyc]
  rfl

theorem exec_ldaZp_eq (z : Byte) (s : State) : exec (.ldaZp z) s = .next { s with
    a := s.readByte (zext16 z), flags := s.flags.setZN (s.readByte (zext16 z)), pc := s.pc + 2,
    cyc := s.cyc - 3, phase := .fetchingOpcode } := by
  have hpc : s.pc + 1 + 1 = s.pc + 2 := by bv_omega
  have hcyc : s.cyc - 1 - 1 - 1 = s.cyc - 3 := by omega
  rw [← hpc, ← hcyc]
  simp only [exec, execLdaZp, resolveZp_eq, loadFrom_eq, State.passOpcode_eq]
  rfl

theorem exec_ldaZpX_eq (z : Byte) (s : State) : exec (.ldaZpX z) s = .next { s with
    a := s.readByte (zext16 (z + s.x)), flags := s.flags.setZN (s.readByte (zext16 (z + s.x))), pc := s.pc + 2,
    cyc := s.cyc - 4, phase := .fetchingOpcode } := by
  have hpc : s.pc + 1 + 1 = s.pc + 2 := by bv_omega
  have hcyc : s.cyc - 1 - 2 - 1 = s.cyc - 4 := by omega
  rw [← hpc, ← hcyc]
  simp only [exec, execLdaZpX, resolveZpX_eq, loadFrom_eq, State.passOpcode_eq]
  rfl

theorem exec_ldaAbs_eq (abs : Word) (s : State) : exec (.ldaAbs abs) s = .next { s with
    a := s.readByte abs, flags := s.flags.setZN (s.readByte abs), pc := s.pc + 3,
    cyc := s.cyc - 4, phase := .fetchingOpcode } := by
  have hpc : s.pc + 1 + 2 = s.pc + 3 := by bv_omega
  have hcyc : s.cyc - 1 - 2 - 1 = s.cyc - 4 := by omega
  rw [← hpc, ← hcyc]
  simp only [exec, execLdaAbs, resolveAbs_eq, loadFrom_eq, State.passOpcode_eq]
  rfl

theorem exec_ldaAbsX_eq (abs : Word) (s : State) : exec (.ldaAbsX abs) s = .next { s with
    a := s.readByte (abs + zext16 s.x), flags := s.flags.setZN (s.readByte (abs + zext16 s.x)), pc := s.pc + 3,
    cyc := s.cyc - (4 + if pageCross abs (abs + zext16 s.x) then 1 else 0), phase := .fetchingOpcode } := by
  have hpc : s.pc + 1 + 2 = s.pc + 3 := by bv_omega
  have hcyc : ∀ k : Int, s.cyc - 1 - 2 - k - 1 = s.cyc - (4 + k) := by omega
  rw [← hpc, ← hcyc]
  simp only [exec, execLdaAbsX, resolveAbsX_eq, loadFrom_eq, State.passOpcode_eq]
  rfl

theorem exec_ldaAbsY_eq (abs : Word) (s : State) : exec (.ldaAbsY abs) s = .next { s with
    a := s.readByte (abs + zext16 s.y), flags := s.flags.setZN (s.readByte (abs + zext16 s.y)), pc := s.pc + 3,
    cyc := s.cyc - (4 + if pageCross abs (abs + zext16 s.y) then 1 else 0), phase := .fetchingOpcode } := by
  have hpc : s.pc + 1 + 2 = s.pc + 3 := by bv_omega
  have hcyc : ∀ k : Int, s.cyc - 1 - 2 - k - 1 = s.cyc - (4 + k) := by omega
  rw [← hpc, ← hcyc]
  simp only [exec, execLdaAbsY, resolveAbsY_eq, loadFrom_eq, State.passOpcode_eq]
  rfl

theorem exec_ldaIndX_eq (z : Byte) (s : State) : exec (.ldaIndX z) s = .next { s with
    a := s.readByte (s.pointerAt (z + s.x)), flags := s.flags.setZN (s.readByte (s.pointerAt (z + s.x))), pc := s.pc + 2,
    cyc := s.cyc - 6, phase := .fetchingOpcode } := by
  have hpc : s.pc + 1 + 1 = s.pc + 2 := by bv_omega
  have hcyc : s.cyc - 1 - 4 - 1 = s.cyc - 6 := by omega
  rw [← hpc, ← hcyc]
  simp only [exec, execLdaIndX, resolveIndX_eq, loadFrom_eq, State.passOpcode_eq]
  rfl

theorem exec_ldaIndY_eq (z : Byte) (s : State) : exec (.ldaIndY z) s = .next { s with
    a := s.readByte (s.pointerAt z + zext16 s.y), flags := s.flags.setZN (s.readByte (s.pointerAt z + zext16 s.y)), pc := s.pc + 2,
    cyc := s.cyc - (5 + if pageCross (s.pointerAt z) (s.pointerAt z + zext16 s.y) then 1 else 0), phase := .fetchingOpcode } := by
  have hpc : s.pc + 1 + 1 = s.pc + 2 := by bv_omega
  have hcyc : ∀ k : Int, s.cyc - 1 - 3 - k - 1 = s.cyc - (5 + k) := by omega
  rw [← hpc, ← hcyc]
  simp only [exec, execLdaIndY, resolveIndY_eq, loadFrom_eq, State.passOpcode_eq]
  rfl

theorem exec_jsrAbs_eq (target : Word) (s : State) : exec (.jsrAbs target) s = .next
    { (s.writeByte (stackAddr s.sp) (hiByte (s.pc + 2))).writeByte (stackAddr (s.sp - 1)) (loByte (s.pc + 2)) with
      pc := target, sp := s.sp - 2, cyc := s.cyc - 6, phase := .fetchingOpcode } := by
  have hret : s.pc + 1 + 2 - 1 = s.pc + 2 := by bv_omega
  have hsp : s.sp - 1 - 1 = s.sp - 2 := by bv_omega
  have hcyc : s.cyc - 1 - 2 - 1 - 1 - 1 = s.cyc - 6 := by omega
  simp only [exec, execJsrAbs, resolveAbs_eq, State.passOpcode_eq, State.push_eq, State.enter, State.tick, hret, hsp]
  rw [← hcyc]
  rfl

theorem exec_unimplemented_eq (op : Byte) (s : State) : exec (.unimplemented op) s = .next { s with
    pc := s.pc + 1, cyc := s.cyc - 1, phase := .fetchingOpcode, diag := s.diag ++ [{ addr := s.pc, op := op }] } := rfl

/-- The two cells of a JSR's pushes are never the same cell. -/
theorem stackAddr_ne_pred (sp : Byte) : stackAddr sp ≠ stackAddr (sp - 1) := by
  intro h
  have hnat := congrArg BitVec.toNat h
  rw [stackAddr_toNat, stackAddr_toNat] at hnat
  have hsp : sp = sp - 1 := BitVec.eq_of_toNat_eq (by omega)
  bv_omega

end Sys2Proof.Machine
end

