-- ==== Sys2Proof/Laws/PerInstr.lean ====
section
/-! SUPPORT. Sys2Proof/Laws/PerInstr.lean: the family EncodedForm, one lemma per constructor of Instr: an instruction's encoding
is as long as R88 says, and its format is the one its opcode byte selects (spec/30_encoding.md R81, R84, R88). -/

namespace Sys2Proof.Laws.EncodedForm

/-- The encoding has the length of the instruction, and, for a well-formed instruction, its first byte selects a format of
that length. -/
def Statement (i : Instr) : Prop :=
  (encode i).length = i.size ∧ (i.wf = true → ((encode i).head?.map fun op => (formatOf op).length) = some i.size)

theorem ldaImm (imm : Byte) : Statement (.ldaImm imm) := ⟨rfl, fun _ => rfl⟩
theorem ldaZp (z : Byte) : Statement (.ldaZp z) := ⟨rfl, fun _ => rfl⟩
theorem ldaZpX (z : Byte) : Statement (.ldaZpX z) := ⟨rfl, fun _ => rfl⟩
theorem ldaAbs (abs : Word) : Statement (.ldaAbs abs) := ⟨rfl, fun _ => rfl⟩
theorem ldaAbsX (abs : Word) : Statement (.ldaAbsX abs) := ⟨rfl, fun _ => rfl⟩
theorem ldaAbsY (abs : Word) : Statement (.ldaAbsY abs) := ⟨rfl, fun _ => rfl⟩
theorem ldaIndX (z : Byte) : Statement (.ldaIndX z) := ⟨rfl, fun _ => rfl⟩
theorem ldaIndY (z : Byte) : Statement (.ldaIndY z) := ⟨rfl, fun _ => rfl⟩
theorem jsrAbs (target : Word) : Statement (.jsrAbs target) := ⟨rfl, fun _ => rfl⟩

theorem unimplemented (op : Byte) : Statement (.unimplemented op) := by
  refine ⟨rfl, fun h => ?_⟩
  have hnone : lookupOpcode op = none := by
    rw [lookupOpcode_none_iff]
    simpa [Instr.wf] using h
  simp [encode, formatOf, hnone, Format.length, Instr.size]

end Sys2Proof.Laws.EncodedForm
end

