-- ==== Sys2Proof/Tests/Slice0.lean ====
section
/-! SUPPORT. Sys2Proof/Tests/Slice0.lean: tests of one step or one operation, expected results from spec/95_test_vectors.md (the
vector's id is in the name) and from the encodings of spec/30_encoding.md; and, for each statement of
Certificates/Slice0/Obligations.lean that has hypotheses, a witness that meets them together. -/

namespace Sys2Proof.Tests

open Sys2Proof Sys2Proof.Machine

/-! ### Helpers -/

/-- The state after reset with cells written, PC and CYC preset (spec/95_test_vectors.md, "Conventions"). -/
def start (pc : Word) (cyc : Int) (cells : List (Word × Byte)) : State :=
  cells.foldl (fun s c => s.writeByte c.1 c.2) { State.reset with pc := pc, cyc := cyc }

/-- The outcome is a next state of which `p` holds. -/
def after (o : Host.Outcome State Fault Refusal) (p : State → Bool) : Bool :=
  match o with
  | .next t => p t
  | .fault _ => false
  | .refused _ => false

/-- A, Z, N, PC and CYC are as a vector lists them. -/
def shows (a : Byte) (z n : Bool) (pc : Word) (t : State) : Bool :=
  t.a == a && t.flags.z == z && t.flags.n == n && t.pc == pc && t.cyc == 0

/-! ### WellFormed: every ill-formed term is refused (R85) -/

theorem test_wf_refuses_implemented_opcodes_as_unimplemented :
    implementedOpcodes.all (fun op => !(Instr.unimplemented op).wf) = true := by decide

theorem test_wf_accepts_brk_nop_rts : ([0x00, 0xEA, 0x60] : List Byte).all (fun op => (Instr.unimplemented op).wf) = true := by
  decide

/-! ### Decoding: words written out bit by bit from R81 and R84 -/

theorem test_decode_ldaImm : decode [0b10101001, 0b10000100] = .ok (.ldaImm 0x84, []) := rfl
theorem test_decode_ldaZp : decode [0b10100101, 0b01000010] = .ok (.ldaZp 0x42, []) := rfl
theorem test_decode_ldaZpX : decode [0b10110101, 0b10000000] = .ok (.ldaZpX 0x80, []) := rfl
theorem test_decode_ldaAbs : decode [0b10101101, 0b10000000, 0b01000100] = .ok (.ldaAbs 0x4480, []) := rfl
theorem test_decode_ldaAbsX : decode [0b10111101, 0b11111111, 0b01000100] = .ok (.ldaAbsX 0x44FF, []) := rfl
theorem test_decode_ldaAbsY : decode [0b10111001, 0b00000010, 0b01000100] = .ok (.ldaAbsY 0x4402, []) := rfl
theorem test_decode_ldaIndX : decode [0b10100001, 0b11111110] = .ok (.ldaIndX 0xFE, []) := rfl
theorem test_decode_ldaIndY : decode [0b10110001, 0b00000010] = .ok (.ldaIndY 0x02, []) := rfl
theorem test_decode_jsrAbs : decode [0b00100000, 0b11001101, 0b10101011] = .ok (.jsrAbs 0xABCD, []) := rfl
theorem test_decode_unimplemented : decode [0b11101010, 0b10101001] = .ok (.unimplemented 0xEA, [0xA9]) := rfl
theorem test_decode_rejects_short_strings :
    decode [] = .error .noOpcode ∧ decode [0xA9] = .error (.missingOperand 0xA9) ∧
      decode [0x20, 0x42] = .error (.missingOperand 0x20) := ⟨rfl, rfl, rfl⟩

/-! ### One step, by vector id -/

theorem test_L1_ldaImm_zero : after (step { start 0x0200 2 [(0x0200, 0xA9), (0x0201, 0x00)] with
    a := 0x55, flags := { Flags.cleared with n := true } }) (shows 0x00 true false 0x0202) = true := by decide

theorem test_L5_ldaImm_pc_wraps : after (step (start 0xFFFE 2 [(0xFFFE, 0xA9), (0xFFFF, 0x01)]))
    (shows 0x01 false false 0x0000) = true := by decide

theorem test_L6_ldaZp : after (step (start 0x0200 3 [(0x0200, 0xA5), (0x0201, 0x42), (0x0042, 0x37)]))
    (shows 0x37 false false 0x0202) = true := by decide

theorem test_L8_ldaZpX : after (step { start 0x0200 4 [(0x0200, 0xB5), (0x0201, 0x80), (0x008F, 0x80)] with x := 0x0F })
    (shows 0x80 false true 0x0202) = true := by decide

theorem test_L9_ldaZpX_wraps_in_page_0 : after (step { start 0x0200 4
    [(0x0200, 0xB5), (0x0201, 0xFF), (0x0001, 0x11), (0x0101, 0x99)] with x := 0x02 })
    (shows 0x11 false false 0x0202) = true := by decide

theorem test_L12_ldaAbs_reads_its_own_opcode :
    after (step (start 0x0200 4 [(0x0200, 0xAD), (0x0201, 0x00), (0x0202, 0x02)])) (shows 0xAD false true 0x0203) = true := by
  decide

theorem test_L14_ldaAbsX_cross : after (step { start 0x0200 5
    [(0x0200, 0xBD), (0x0201, 0xFF), (0x0202, 0x44), (0x4500, 0x91)] with x := 0x01 })
    (shows 0x91 false true 0x0203) = true := by decide

theorem test_L15_ldaAbsX_wraps_and_crosses : after (step { start 0x0200 5
    [(0x0200, 0xBD), (0x0201, 0xFF), (0x0202, 0xFF), (0x0000, 0x5A)] with x := 0x01 })
    (shows 0x5A false false 0x0203) = true := by decide

theorem test_L17_ldaAbsY_cross : after (step { start 0x0200 5
    [(0x0200, 0xB9), (0x0201, 0x02), (0x0202, 0x44), (0x4501, 0x80)] with y := 0xFF })
    (shows 0x80 false true 0x0203) = true := by decide

theorem test_L18_ldaAbsY_no_cross : after (step { start 0x0200 4
    [(0x0200, 0xB9), (0x0201, 0x80), (0x0202, 0x44)] with y := 0x01, a := 0x07 })
    (shows 0x00 true false 0x0203) = true := by decide

theorem test_L20_ldaIndX_pointer_wraps : after (step { start 0x0200 6
    [(0x0200, 0xA1), (0x0201, 0xFE), (0x00FF, 0x34), (0x0000, 0x12), (0x0100, 0x99), (0x1234, 0xC3), (0x9934, 0x11)] with
    x := 0x01 }) (shows 0xC3 false true 0x0202) = true := by decide

theorem test_L23_ldaIndY_cross : after (step { start 0x0200 6
    [(0x0200, 0xB1), (0x0201, 0x02), (0x0002, 0xFF), (0x0003, 0x80), (0x8100, 0x91)] with y := 0x01 })
    (shows 0x91 false true 0x0202) = true := by decide

theorem test_L24_ldaIndY_pointer_wraps : after (step (start 0x0200 5
    [(0x0200, 0xB1), (0x0201, 0xFF), (0x00FF, 0x34), (0x0000, 0x12), (0x0100, 0x99), (0x1234, 0x42)]))
    (shows 0x42 false false 0x0202) = true := by decide

theorem test_J1_jsrAbs : after (step (start 0x1234 6 [(0x1234, 0x20), (0x1235, 0xCD), (0x1236, 0xAB)]))
    (fun t => t.pc == 0xABCD && t.sp == 0xFC && t.cyc == 0 && t.readByte 0x01FE == 0x12 && t.readByte 0x01FD == 0x36) = true := by
  decide

theorem test_J6_jsrAbs_operand_wraps : after (step (start 0xFFFE 6 [(0xFFFE, 0x20), (0xFFFF, 0x00), (0x0000, 0x40)]))
    (fun t => t.pc == 0x4000 && t.sp == 0xFC && t.readByte 0x01FE == 0x00 && t.readByte 0x01FD == 0x00) = true := by
  decide

theorem test_UN1_unimplemented : after (step (start 0x0200 1 [(0x0201, 0xA9)]))
    (fun t => t.pc == 0x0201 && t.cyc == 0 && t.diag == [{ addr := 0x0200, op := 0x00 }]) = true := by decide

theorem test_UN3_unimplemented_pc_wraps : after (step (start 0xFFFF 1 [(0xFFFF, 0xFF)]))
    (fun t => t.pc == 0x0000 && t.cyc == 0 && t.diag == [{ addr := 0xFFFF, op := 0xFF }]) = true := by decide

/-! ### The run and the host's operations -/

theorem test_P4_overdraw : after (execute 1 (start 0xFFFC 0 [(0xFFFC, 0x20), (0xFFFD, 0x42), (0xFFFE, 0x42)]))
    (fun t => t.pc == 0x4242 && t.sp == 0xFC && t.cyc == -5 && t.readByte 0x01FE == 0xFF && t.readByte 0x01FD == 0xFE) = true := by
  decide

theorem test_E2_negative_budget : after (execute (-3) (start 0xFFFC 0 [(0xFFFC, 0xA9), (0xFFFD, 0x01)]))
    (fun t => t.pc == 0xFFFC && t.cyc == -3 && t.a == 0x00) = true := by decide

theorem test_M1_writeWord : ((State.reset.writeWord 0x1000 0xBEEF).readByte 0x1000, (State.reset.writeWord 0x1000 0xBEEF).readByte 0x1001)
    = (0xEF, 0xBE) := by decide

theorem test_M5_readWord_at_top_refused : hostCommand (.readWord 0xFFFF) State.reset = .refused .hostWordAtTop := rfl

theorem test_P1_packed_flags : Flags.pack { Flags.cleared with n := true } = 0x80 := by decide

theorem test_memory_canonical : Memory.write (Memory.write (Memory.write [] 5 1) 3 2) 5 0 = [(3, 2)] := by decide

/-! ### R70: the port sequence of JSR -/

theorem test_port_jsr : portCycles (.jsrAbs 0xABCD) (start 0x1234 6 [(0x1234, 0x20), (0x1235, 0xCD), (0x1236, 0xAB)]) =
    [.read 0x1234 0x20, .read 0x1235 0xCD, .read 0x1236 0xAB, .write 0x01FE 0x12, .write 0x01FD 0x36, .internal] := by decide

/-! ### Witnesses: the hypotheses of each statement are met together -/

/-- HostByteReadAndWrite: another cell exists. -/
theorem witness_HostByteReadAndWrite : (0x0000 : Word) ≠ 0xFFFF := by decide

/-- HostWordIsLittleEndian, at the last admitted address; the third cell is another one. -/
theorem witness_HostWordIsLittleEndian :
    (0xFFFE : Word) ≠ 0xFFFF ∧ (0x0000 : Word) ≠ 0xFFFE ∧ (0x0000 : Word) ≠ 0xFFFE + 1 := by decide

/-- HostRefusedOnlyAtTopWord: each side happens. -/
theorem witness_HostRefusedOnlyAtTopWord :
    hostCommand (.writeWord 0xFFFF 0x1234) State.reset = .refused .hostWordAtTop ∧
      hostCommand (.readWord 0xFFFE) State.reset = .next (State.reset, .word 0x0000) := ⟨rfl, rfl⟩

/-- HostCannotWriteRegisters: a command that is neither reset nor execute and answers. -/
theorem witness_HostCannotWriteRegisters : HostCommand.writeByte 0x0010 0x22 ≠ .reset ∧
    (∀ n, HostCommand.writeByte 0x0010 0x22 ≠ .execute n) ∧ (0xFFFE : Word) ≠ 0xFFFF ∧
    hostCommand (.writeByte 0x0010 0x22) State.reset = .next (State.reset.writeByte 0x0010 0x22, .done) :=
  ⟨by simp, by simp, by decide, rfl⟩

/-- DecodeOfEncode: a well-formed instruction of the catch-all row. -/
theorem witness_DecodeOfEncode : (Instr.unimplemented 0xFF).wf = true := by decide

/-- EncodeOfDecode: bytes that decode, with a rest. -/
theorem witness_EncodeOfDecode : decode [0x20, 0xFC, 0xFF, 0x00] = .ok (.jsrAbs 0xFFFC, [0x00]) := rfl

/-- LengthIsDecidedByOpcodeByte: two different states with the same PC and the same cells. -/
theorem witness_LengthIsDecidedByOpcodeByte :
    ∃ s t : State, s ≠ t ∧ s.pc = t.pc ∧ ∀ r, s.readByte r = t.readByte r :=
  ⟨State.reset, { State.reset with x := 0x01, flags := { Flags.cleared with d := true } }, by decide, rfl, fun _ => rfl⟩

/-- StepRunsDecodedInstruction: an instruction across the top of memory. -/
theorem witness_StepRunsDecodedInstruction :
    let s := start 0xFFFE 6 [(0xFFFE, 0x20), (0xFFFF, 0x00), (0x0000, 0x40)]
    decode [s.readByte s.pc, s.readByte (s.pc + 1), s.readByte (s.pc + 2)] = .ok (.jsrAbs 0x4000, []) := by
  rfl

/-- StoredWordIsTheInstructionFetched: a table word shorter than its instruction. -/
theorem witness_StoredWordIsTheInstructionFetched : decodeTableWord 8 0x20 = some (.jsrAbs 0x0000) := by decide

/-- EveryLdaLoadsAndSetsZN: a loaded byte at the boundary of N. -/
theorem witness_EveryLdaLoadsAndSetsZN :
    loadedByte (.ldaZp 0xFF) (start 0x0200 3 [(0x00FF, 0x80)]) = some 0x80 := by decide

/-- The opcode-byte clauses of the eight LDA results: each opcode byte stands at some PC. -/
theorem witness_LdaResults_opcode_bytes :
    ([0xA9, 0xA5, 0xB5, 0xAD, 0xBD, 0xB9, 0xA1, 0xB1] : List Byte).all (fun op =>
      (start 0x0200 6 [(0x0200, op)]).readByte 0x0200 == op) = true := by decide

/-- The address clauses of LdaZeroPageResult, LdaZeroPageXResult, LdaAbsoluteResult, LdaAbsoluteXResult, LdaAbsoluteYResult. -/
theorem witness_LdaResults_addresses :
    let s : State := { start 0x0200 6 [(0x0001, 0x11), (0x00FF, 0x22), (0x4500, 0x33)] with x := 0x02, y := 0x01 }
    s.readByte (zext16 0xFF) = 0x22 ∧ s.readByte (zext16 (0xFF + s.x)) = 0x11 ∧ s.readByte 0x4500 = 0x33 ∧
      s.readByte (0x44FE + zext16 s.x) = 0x33 ∧ s.readByte (0x44FF + zext16 s.y) = 0x33 := by decide

/-- LdaIndirectXResult and LdaIndirectYResult: a pointer at zero-page location 0xFF, and data at its target. -/
theorem witness_LdaResults_pointers :
    let s : State := { start 0x0200 6 [(0x00FF, 0x34), (0x0000, 0x12), (0x1234, 0xC3), (0x1235, 0x42)] with x := 0x01, y := 0x01 }
    s.readByte (zext16 (0xFE + s.x)) = 0x34 ∧ s.readByte (zext16 (0xFE + s.x + 1)) = 0x12 ∧
      s.readByte (joinBytes 0x12 0x34) = 0xC3 ∧
      s.readByte (zext16 0xFF) = 0x34 ∧ s.readByte (zext16 (0xFF + 1)) = 0x12 ∧
      s.readByte (joinBytes 0x12 0x34 + zext16 s.y) = 0x42 := by decide

/-- ResolversWriteOnlyPcAndCyc: a member of the list. -/
theorem witness_ResolversWriteOnlyPcAndCyc : (resolveIndY 0xFF State.reset).2 ∈
    [(resolveImm 0xFF State.reset).2, (resolveZp 0xFF State.reset).2, (resolveZpX 0xFF State.reset).2,
      (resolveAbs 0x44FF State.reset).2, (resolveAbsX 0x44FF State.reset).2, (resolveAbsY 0x44FF State.reset).2,
      (resolveIndX 0xFF State.reset).2, (resolveIndY 0xFF State.reset).2] := by simp

/-- IndirectPointerComesFromZeroPage: two different memories that agree on page 0. -/
theorem witness_IndirectPointerComesFromZeroPage :
    ([(0x0100, 0x99)] : Memory) ≠ [] ∧ ∀ k, k < 256 → Memory.read [(0x0100, 0x99)] k = Memory.read [] k := by
  refine ⟨by simp, fun k hk => ?_⟩
  have hne : (256 : Nat) ≠ k := by omega
  simp [Memory.read, hne]

/-- JsrPushesReturnAddressAndJumps: a cell other than the two stored. -/
theorem witness_JsrPushesReturnAddressAndJumps :
    (0x0200 : Word) ≠ stackAddr State.reset.sp ∧ (0x0200 : Word) ≠ stackAddr (State.reset.sp - 1) := by decide

/-- JsrOpcodeTakesTheWordAfterIt. -/
theorem witness_JsrOpcodeTakesTheWordAfterIt :
    (start 0xFFFC 6 [(0xFFFC, 0x20)]).readByte (start 0xFFFC 6 [(0xFFFC, 0x20)]).pc = 0x20 := by decide

/-- JsrReturnWordIsLittleEndian, at the boundary SP = 0x01; JsrWrapsStackPointer at SP = 0x00. -/
theorem witness_JsrReturnWordIsLittleEndian : ({ State.reset with sp := 0x01 } : State).sp ≠ 0x00 := by decide
theorem witness_JsrWrapsStackPointer : ({ State.reset with sp := 0x00 } : State).sp = 0x00 := rfl

/-- UnimplementedOpcodeResult: the reset state's own first byte. -/
theorem witness_UnimplementedOpcodeResult :
    State.reset.readByte State.reset.pc ∉ ([0xA9, 0xA5, 0xB5, 0xAD, 0xBD, 0xB9, 0xA1, 0xB1, 0x20] : List Byte) := by decide

/-- StepWritesOnlyListedState and IndexAndStackPointerReadOnlyWhereListed: an opcode byte for each clause. -/
theorem witness_StepClauses :
    (0x20 : Byte) ∉ ([0xA9, 0xA5, 0xB5, 0xAD, 0xBD, 0xB9, 0xA1, 0xB1] : List Byte) ∧ (0xA9 : Byte) ≠ 0x20 ∧
      implementedOpcodes.contains 0xA9 = true ∧ (0xB9 : Byte) ∉ ([0xB5, 0xBD, 0xA1] : List Byte) ∧
      (0xBD : Byte) ∉ ([0xB9, 0xB1] : List Byte) := by decide

/-- StepIsCleanIffImplemented: its last clause has a state with an event. -/
theorem witness_StepIsCleanIffImplemented : after (step State.reset) (fun t => t.diag != State.reset.diag) = true := by decide

/-- StepStoresOnlyInStackPage: addresses on both sides of the page. -/
theorem witness_StepStoresOnlyInStackPage : (0x00FF : Word).toNat < 0x0100 ∧ 0x01FF < (0x0200 : Word).toNat := by decide

/-- StepKeepsTheInvariant: a state with a listed cell, N set, about to run a JSR. -/
theorem witness_StepKeepsTheInvariant :
    State.Inv { start 0xFFFC 6 [(0xFFFC, 0x20)] with flags := { Flags.cleared with n := true } } :=
  ⟨by decide, rfl, by decide⟩

/-- ReachableIdleStatesShape: a reachable state other than the reset state. -/
theorem witness_ReachableIdleStatesShape : Reachable (State.reset.writeByte 0xFFFC 0xA9) :=
  Reachable.command (.writeByte 0xFFFC 0xA9) State.reset _ .done Reachable.reset rfl

/-- HostCommandKeepsTheIdleShape: an idle state with a program injected, and a command that answers from it. -/
theorem witness_HostCommandKeepsTheIdleShape : (State.reset.writeByte 0xFFFC 0xA9).Idle ∧
    hostCommand (.execute 0) (State.reset.writeByte 0xFFFC 0xA9) = .next (State.reset.writeByte 0xFFFC 0xA9, .done) :=
  ⟨⟨⟨by decide, rfl, by decide⟩, rfl, rfl, rfl, rfl, rfl, rfl, rfl, rfl, by decide⟩, rfl⟩

/-- AccumulatorAndFlagsAreNeverRead: a state for each clause, with another A and other flags. -/
theorem witness_AccumulatorAndFlagsAreNeverRead :
    (start 0x0200 2 [(0x0200, 0xA9)]).readByte 0x0200 ∈ ([0xA9, 0xA5, 0xB5, 0xAD, 0xBD, 0xB9, 0xA1, 0xB1] : List Byte) ∧
      (start 0x0200 6 [(0x0200, 0x20)]).readByte 0x0200 ∉ ([0xA9, 0xA5, 0xB5, 0xAD, 0xBD, 0xB9, 0xA1, 0xB1] : List Byte) ∧
      (0x55 : Byte) ≠ State.reset.a ∧ ({ Flags.cleared with c := true, z := true } : Flags) ≠ State.reset.flags := by decide

/-- NonPositiveBudgetRunsNothing at its boundary, OverdrawIsAtMostFive at its boundary. -/
theorem witness_NonPositiveBudgetRunsNothing : (0 : Int) ≤ 0 := by decide
theorem witness_OverdrawIsAtMostFive : (0 : Int) < 1 := by decide

/-- RunEndsAtFirstNonPositiveBoundary: a run that takes a step, so its last clause speaks of a state. -/
theorem witness_RunEndsAtFirstNonPositiveBoundary : (0 : Nat) < (1 : Int).toNat := by decide

/-- RunSplitsWhenRemainderIsCarried: a first run that ends, and a second budget at its boundary 0. -/
theorem witness_RunSplitsWhenRemainderIsCarried :
    (0 : Int) ≤ 0 ∧ execute 1 State.reset = .next { State.reset with
      pc := 0xFFFD, cyc := 0, diag := [{ addr := 0xFFFC, op := 0x00 }] } := ⟨by decide, rfl⟩

end Sys2Proof.Tests
end

section
/-! PROOFS. Totality (spec/00_scope.md R9, spec/60_exceptions.md R191): no instruction faults, none is refused. -/

namespace Sys2Proof.Machine

/-- No arm of `exec` ends in a fault or a refusal: the equation of each meaning names the state it answers (R9, R191). -/
theorem exec_answers_next (i : Instr) (s : State) : ∃ t, exec i s = .next t := by
  cases i with
  | ldaImm imm => exact ⟨_, exec_ldaImm_eq imm s⟩
  | ldaZp z => exact ⟨_, exec_ldaZp_eq z s⟩
  | ldaZpX z => exact ⟨_, exec_ldaZpX_eq z s⟩
  | ldaAbs abs => exact ⟨_, exec_ldaAbs_eq abs s⟩
  | ldaAbsX abs => exact ⟨_, exec_ldaAbsX_eq abs s⟩
  | ldaAbsY abs => exact ⟨_, exec_ldaAbsY_eq abs s⟩
  | ldaIndX z => exact ⟨_, exec_ldaIndX_eq z s⟩
  | ldaIndY z => exact ⟨_, exec_ldaIndY_eq z s⟩
  | jsrAbs target => exact ⟨_, exec_jsrAbs_eq target s⟩
  | unimplemented op => exact ⟨_, exec_unimplemented_eq op s⟩

/-- A step runs the instruction decoded at PC, so it answers as `exec` does (R9, R110). -/
theorem step_answers_next (s : State) : ∃ t, step s = .next t := by
  rw [step_eq_exec]
  exact exec_answers_next _ s

/-- Settles O17: every arm of `exec` answers a next state, and a step is `exec` of the decoded instruction. -/
theorem everyInstructionCompletes : Obligations.EveryInstructionCompletes :=
  ⟨exec_answers_next, step_answers_next⟩

end Sys2Proof.Machine
end

section
/-! PROOFS. The opcode byte of an instruction, and what it says about the instruction decoded at PC
(spec/30_encoding.md R82, R84, R85). -/

namespace Sys2Proof

/-- The opcode byte of an instruction: the first byte of its encoding (R80, R84). -/
def Instr.opcode (i : Instr) : Byte := (encode i).headD 0x00

/-- The opcode bytes of the eight LDA forms, in the order of R84. -/
def ldaOpcodes : List Byte := [0xA9, 0xA5, 0xB5, 0xAD, 0xBD, 0xB9, 0xA1, 0xB1]

theorem decodeInstr_opcode (op b1 b2 : Byte) : (decodeInstr op b1 b2).opcode = op := by
  rw [decodeInstr_eq]
  split_ifs <;> simp [Instr.opcode, encode, *]

theorem decodeInstr_wf (op b1 b2 : Byte) : (decodeInstr op b1 b2).wf = true := by
  unfold decodeInstr
  cases h : lookupOpcode op with
  | none =>
    have hop := (lookupOpcode_none_iff op).mp h
    simpa only [Instr.wf, Bool.not_eq_true'] using hop
  | some k => cases k <;> rfl

/-- The catch-all row stands for none of the nine opcode bytes (R85). -/
theorem Instr.not_implemented_of_wf {op : Byte} (h : (Instr.unimplemented op).wf = true) :
    implementedOpcodes.contains op = false := by
  simpa [Instr.wf] using h

theorem not_mem_ldaOpcodes_of_not_implemented {op : Byte} (h : implementedOpcodes.contains op = false) :
    op ∉ ldaOpcodes := by
  revert op
  decide

namespace Machine

theorem State.fetchedInstr_opcode (s : State) : s.fetchedInstr.opcode = s.readByte s.pc := by
  rw [State.fetchedInstr_eq, decodeInstr_opcode]

theorem State.fetchedInstr_wf (s : State) : s.fetchedInstr.wf = true := decodeInstr_wf _ _ _

/-- A step reads its instruction from memory at PC and from nothing else: a state with the same PC and memory as `s` runs the
instruction at PC in `s`. -/
theorem step_of_same_fetch {s s' : State} {o : Host.Outcome State Fault Refusal} (ho : exec s.fetchedInstr s' = o)
    (hpc : s'.pc = s.pc) (hmem : s'.mem = s.mem) : step s' = o := by
  simpa only [step, State.fetchedInstr, State.streamByte, State.readByte, hpc, hmem] using ho

end Machine
end Sys2Proof
end

section
/-! PROOFS. What an instruction can do, said once: an LDA's load, JSR's pushes and jump, or the report of an unimplemented
opcode (spec/10_state.md R42). The length and the cost are those of the tables R88 and R114. -/

namespace Sys2Proof.Machine

/-- The state after an LDA that loads `v`, of `len` bytes and `cost` cycles (R140). -/
def loadResult (v : Byte) (len cost : Nat) (s : State) : State :=
  { s with
    a := v, flags := s.flags.setZN v, pc := s.pc + BitVec.ofNat 16 len, cyc := s.cyc - (cost : Int)
    phase := .fetchingOpcode }

/-- The state after JSR (R160). -/
def jsrResult (target : Word) (s : State) : State :=
  { (s.writeByte (stackAddr s.sp) (hiByte (s.pc + 2))).writeByte (stackAddr (s.sp - 1)) (loByte (s.pc + 2)) with
    pc := target, sp := s.sp - 2, cyc := s.cyc - 6, phase := .fetchingOpcode }

/-- The state after an unimplemented opcode (R190). -/
def unimplementedResult (op : Byte) (s : State) : State :=
  { s with
    pc := s.pc + 1, cyc := s.cyc - 1, phase := .fetchingOpcode, diag := s.diag ++ [{ addr := s.pc, op := op }] }

/-- The page-cross cycle of the cost table is the one the resolver charges (R114, R128). -/
theorem crossCost_eq_pageCross (base eff : Word) :
    (crossCost base eff : Int) = if pageCross base eff then 1 else 0 := by
  rw [pageCross_eq_hiByte, crossCost]
  by_cases h : hiByte base = hiByte eff <;> simp [h]

/-- Every LDA form, the byte, the length and the cost read off the tables R131, R88 and R114. -/
theorem exec_of_loadedByte {i : Instr} {s : State} {v : Byte} (h : loadedByte i s = some v) :
    exec i s = .next (loadResult v i.size (cycleCost i s) s) := by
  cases i with
  | ldaImm imm => cases h; exact exec_ldaImm_eq v s
  | ldaZp z => cases h; exact exec_ldaZp_eq z s
  | ldaZpX z => cases h; exact exec_ldaZpX_eq z s
  | ldaAbs abs => cases h; exact exec_ldaAbs_eq abs s
  | ldaAbsX abs =>
    cases h
    rw [exec_ldaAbsX_eq, ← crossCost_eq_pageCross]
    rfl
  | ldaAbsY abs =>
    cases h
    rw [exec_ldaAbsY_eq, ← crossCost_eq_pageCross]
    rfl
  | ldaIndX z => cases h; exact exec_ldaIndX_eq z s
  | ldaIndY z =>
    cases h
    rw [exec_ldaIndY_eq, ← crossCost_eq_pageCross]
    rfl
  | jsrAbs target => cases h
  | unimplemented op => cases h

/-- The three things an instruction can be: a load, JSR, or an opcode byte outside the table. -/
theorem exec_cases (i : Instr) (s : State) :
    (∃ v, loadedByte i s = some v ∧ exec i s = .next (loadResult v i.size (cycleCost i s) s)) ∨
    (∃ target, i = .jsrAbs target ∧ exec i s = .next (jsrResult target s)) ∨
    (∃ op, i = .unimplemented op ∧ exec i s = .next (unimplementedResult op s)) := by
  cases i
  case jsrAbs target => exact .inr (.inl ⟨target, rfl, exec_jsrAbs_eq target s⟩)
  case unimplemented op => exact .inr (.inr ⟨op, rfl, exec_unimplemented_eq op s⟩)
  all_goals exact .inl ⟨_, rfl, exec_of_loadedByte rfl⟩

/-- An instruction that loads a byte has an LDA opcode byte (R84). -/
theorem opcode_mem_of_loadedByte {i : Instr} {s : State} {v : Byte} (h : loadedByte i s = some v) :
    i.opcode ∈ ldaOpcodes := by
  cases i
  case jsrAbs => cases h
  case unimplemented => cases h
  all_goals simp [Instr.opcode, encode, ldaOpcodes]

theorem one_le_cycleCost (i : Instr) (s : State) : 1 ≤ cycleCost i s := by
  unfold cycleCost
  split <;> omega

/-- The same of a step, by the opcode byte at PC (R108, R110). -/
theorem step_cases (s : State) :
    (s.readByte s.pc ∈ ldaOpcodes ∧ ∃ v len cost, 1 ≤ cost ∧ step s = .next (loadResult v len cost s)) ∨
    (s.readByte s.pc = 0x20 ∧ ∃ target, step s = .next (jsrResult target s)) ∨
    (implementedOpcodes.contains (s.readByte s.pc) = false ∧
      step s = .next (unimplementedResult (s.readByte s.pc) s)) := by
  rw [step, ← s.fetchedInstr_opcode]
  obtain ⟨v, hv, he⟩ | ⟨target, hi, he⟩ | ⟨op, hi, he⟩ := exec_cases s.fetchedInstr s
  · exact .inl ⟨opcode_mem_of_loadedByte hv, v, _, _, one_le_cycleCost _ s, he⟩
  · exact .inr (.inl ⟨by rw [hi]; rfl, target, he⟩)
  · have hwf := s.fetchedInstr_wf
    rw [hi] at hwf he ⊢
    exact .inr (.inr ⟨Instr.not_implemented_of_wf hwf, he⟩)

/-- Runs an instruction from two states that load the same byte at the same cost: if each kind of result commutes with `F`,
so does the instruction. -/
theorem exec_eq_of_same_load (F : State → State) {i : Instr} {s s' t : State} (ht : exec i s = .next t)
    (hbyte : loadedByte i s' = loadedByte i s) (hcost : cycleCost i s' = cycleCost i s)
    (hload : ∀ v len cost, loadedByte i s = some v → loadResult v len cost s' = F (loadResult v len cost s))
    (hjsr : ∀ target, i = .jsrAbs target → jsrResult target s' = F (jsrResult target s))
    (hunimpl : ∀ op, i = .unimplemented op → unimplementedResult op s' = F (unimplementedResult op s)) :
    exec i s' = .next (F t) := by
  obtain ⟨v, hv, he⟩ | ⟨target, rfl, he⟩ | ⟨op, rfl, he⟩ := exec_cases i s
  · obtain rfl := Host.Outcome.next.inj (he.symm.trans ht)
    rw [exec_of_loadedByte (hbyte.trans hv), hcost, hload v _ _ hv]
  · obtain rfl := Host.Outcome.next.inj (he.symm.trans ht)
    rw [← hjsr target rfl]
    exact exec_jsrAbs_eq target s'
  · obtain rfl := Host.Outcome.next.inj (he.symm.trans ht)
    rw [← hunimpl op rfl]
    exact exec_unimplemented_eq op s'

end Sys2Proof.Machine
end

section
/-! PROOFS. The invariant: reset meets it and every step keeps it (spec/10_state.md R38, R40; spec/42_lda.md R140). -/

namespace Sys2Proof.Machine

/-- A byte with bit 7 set is not zero, so SetZN never sets both flags (R140). -/
theorem Flags.setZN_not_both (f : Flags) (v : Byte) : ¬ ((f.setZN v).z = true ∧ (f.setZN v).n = true) := by
  rintro ⟨hz, hn⟩
  have hv : v = 0x00 := by simpa using hz
  subst hv
  simp at hn

/-- A store keeps the invariant: only the memory changes, and it stays canonical. -/
theorem State.Inv.writeByte {s : State} (h : s.Inv) (addr : Word) (v : Byte) : (s.writeByte addr v).Inv :=
  ⟨s.writeByte_mem_wf addr v h.mem_wf, h.phase_fetching, h.not_zero_and_negative⟩

theorem loadResult_inv {s : State} (h : s.Inv) (v : Byte) (len cost : Nat) : (loadResult v len cost s).Inv :=
  ⟨h.mem_wf, rfl, s.flags.setZN_not_both v⟩

theorem jsrResult_inv {s : State} (h : s.Inv) (target : Word) : (jsrResult target s).Inv := by
  obtain ⟨hmem, -, hflags⟩ :=
    (h.writeByte (stackAddr s.sp) (hiByte (s.pc + 2))).writeByte (stackAddr (s.sp - 1)) (loByte (s.pc + 2))
  exact ⟨hmem, rfl, hflags⟩

theorem unimplementedResult_inv {s : State} (h : s.Inv) (op : Byte) : (unimplementedResult op s).Inv :=
  ⟨h.mem_wf, rfl, h.not_zero_and_negative⟩

/-- Settles O46: a load sets Z and N of one byte, JSR's two stores keep the memory canonical, an unimplemented opcode leaves
both alone; each result is back in `fetchingOpcode`. -/
theorem stepKeepsTheInvariant : Obligations.StepKeepsTheInvariant := by
  intro s h
  obtain ⟨-, v, len, cost, -, hs⟩ | ⟨-, target, hs⟩ | ⟨-, hs⟩ := step_cases s
  · exact ⟨_, hs, loadResult_inv h v len cost⟩
  · exact ⟨_, hs, jsrResult_inv h target⟩
  · exact ⟨_, hs, unimplementedResult_inv h _⟩

/-- Settles O47: the reset memory is canonical, the phase is `fetchingOpcode`, and Z and N are both 0. -/
theorem resetMeetsTheInvariant : Obligations.ResetMeetsTheInvariant :=
  ⟨Memory.wf_reset, rfl, by decide⟩

end Sys2Proof.Machine
end

section
/-! PROOFS. What no step writes: X, Y and the six flags other than Z and N (spec/10_state.md R22, R23, R26, R42). -/

namespace Sys2Proof.Machine

/-- The state that no instruction writes: X, Y and the flags with Z and N masked (R42, columns w). -/
def State.unwritten (s : State) : Byte × Byte × Flags := (s.x, s.y, { s.flags with z := false, n := false })

theorem State.unwritten_eq_iff (s t : State) : t.unwritten = s.unwritten ↔
    t.x = s.x ∧ t.y = s.y ∧ t.flags.c = s.flags.c ∧ t.flags.i = s.flags.i ∧ t.flags.d = s.flags.d ∧
      t.flags.b = s.flags.b ∧ t.flags.u = s.flags.u ∧ t.flags.v = s.flags.v := by
  simp [State.unwritten]

theorem step_keeps_unwritten {s t : State} (ht : step s = .next t) : t.unwritten = s.unwritten := by
  obtain ⟨-, v, len, cost, -, hs⟩ | ⟨-, target, hs⟩ | ⟨-, hs⟩ := step_cases s
  all_goals
    obtain rfl := Host.Outcome.next.inj (hs.symm.trans ht)
    rfl

/-- Only an LDA opcode byte leads to a write of A, Z or N (R42). -/
theorem step_keeps_a_and_flags {s t : State} (ht : step s = .next t) (hop : s.readByte s.pc ∉ ldaOpcodes) :
    t.a = s.a ∧ t.flags = s.flags := by
  obtain ⟨hlda, -⟩ | ⟨-, target, hs⟩ | ⟨-, hs⟩ := step_cases s
  · exact absurd hlda hop
  all_goals
    obtain rfl := Host.Outcome.next.inj (hs.symm.trans ht)
    exact ⟨rfl, rfl⟩

/-- Only JSR writes SP or memory (R42). -/
theorem step_keeps_sp_and_mem {s t : State} (ht : step s = .next t) (hop : s.readByte s.pc ≠ 0x20) :
    t.sp = s.sp ∧ t.mem = s.mem := by
  obtain ⟨-, v, len, cost, -, hs⟩ | ⟨hjsr, -⟩ | ⟨-, hs⟩ := step_cases s
  case inr.inl => exact absurd hjsr hop
  all_goals
    obtain rfl := Host.Outcome.next.inj (hs.symm.trans ht)
    exact ⟨rfl, rfl⟩

/-- Only an unimplemented opcode writes the diagnostics (R42, R190). -/
theorem step_keeps_diag {s t : State} (ht : step s = .next t)
    (hop : implementedOpcodes.contains (s.readByte s.pc) = true) : t.diag = s.diag := by
  obtain ⟨-, v, len, cost, -, hs⟩ | ⟨-, target, hs⟩ | ⟨hnot, -⟩ := step_cases s
  case inr.inr => exact absurd (hop.symm.trans hnot) (by decide)
  all_goals
    obtain rfl := Host.Outcome.next.inj (hs.symm.trans ht)
    rfl

/-- Settles O40: each clause is one frame lemma of the step. -/
theorem stepWritesOnlyListedState : Obligations.StepWritesOnlyListedState := by
  intro s
  obtain ⟨t, ht⟩ := step_answers_next s
  obtain ⟨hx, hy, hc, hi, hd, hb, hu, hv⟩ := (s.unwritten_eq_iff t).mp (step_keeps_unwritten ht)
  refine ⟨t, ht, hx, hy, hc, hi, hd, hb, hu, hv, fun hop => ?_, fun hop => ?_, step_keeps_diag ht⟩
  · obtain ⟨ha, hflags⟩ := step_keeps_a_and_flags ht hop
    exact ⟨ha, by rw [hflags], by rw [hflags]⟩
  · obtain ⟨hsp, hmem⟩ := step_keeps_sp_and_mem ht hop
    exact ⟨hsp, fun r => by rw [State.readByte, State.readByte, hmem]⟩

end Sys2Proof.Machine
end

section
/-! PROOFS. The run and the host's commands keep the idle shape (spec/10_state.md R22, R23, R26, R38; spec/40_engine_loop.md
R101, R102, R109). -/

namespace Sys2Proof.Machine

/-- Every step charges at least one cycle (R109). -/
theorem step_lowers_cyc {s t : State} (ht : step s = .next t) : t.cyc < s.cyc := by
  obtain ⟨-, v, len, cost, hcost, hs⟩ | ⟨-, target, hs⟩ | ⟨-, hs⟩ := step_cases s
  all_goals
    obtain rfl := Host.Outcome.next.inj (hs.symm.trans ht)
  · simp only [loadResult]
    omega
  · simp only [jsrResult]
    omega
  · simp only [unimplementedResult]
    omega

theorem runLoop_of_nonpos (fuel : Nat) {s : State} (h : s.cyc ≤ 0) : runLoop fuel s = .next s := by
  cases fuel with
  | zero => rfl
  | succ fuel => rw [runLoop, if_neg (by omega)]

theorem runLoop_of_pos (fuel : Nat) {s t : State} (h : 0 < s.cyc) (ht : step s = .next t) :
    runLoop (fuel + 1) s = runLoop fuel t := by
  rw [runLoop, if_pos h, ht]

/-- What every step keeps, a run keeps (R101). -/
theorem runLoop_keeps {P : State → Prop} (hstep : ∀ s t, P s → step s = .next t → P t) (fuel : Nat) {s t : State}
    (hs : P s) (ht : runLoop fuel s = .next t) : P t := by
  induction fuel generalizing s with
  | zero =>
    obtain rfl := Host.Outcome.next.inj ht
    exact hs
  | succ fuel ih =>
    by_cases hcyc : 0 < s.cyc
    · obtain ⟨u, hu⟩ := step_answers_next s
      rw [runLoop_of_pos fuel hcyc hu] at ht
      exact ih (hstep s u hs hu) ht
    · rw [runLoop_of_nonpos _ (by omega)] at ht
      obtain rfl := Host.Outcome.next.inj ht
      exact hs

/-- With at least as much fuel as CYC the loop ends by its own test (R101, R109). -/
theorem runLoop_cyc_nonpos (fuel : Nat) {s t : State} (hfuel : s.cyc ≤ fuel) (ht : runLoop fuel s = .next t) :
    t.cyc ≤ 0 := by
  induction fuel generalizing s with
  | zero =>
    obtain rfl := Host.Outcome.next.inj ht
    exact hfuel
  | succ fuel ih =>
    by_cases hcyc : 0 < s.cyc
    · obtain ⟨u, hu⟩ := step_answers_next s
      rw [runLoop_of_pos fuel hcyc hu] at ht
      have hlow := step_lowers_cyc hu
      exact ih (by omega) ht
    · rw [runLoop_of_nonpos _ (by omega)] at ht
      obtain rfl := Host.Outcome.next.inj ht
      omega

/-- What every step keeps and loading CYC does not touch, `execute` keeps (R100, R101). -/
theorem execute_keeps {P : State → Prop} (hstep : ∀ s t, P s → step s = .next t → P t)
    (hcyc : ∀ s n, P s → P { s with cyc := n }) {n : Int} {s t : State} (hs : P s) (ht : execute n s = .next t) : P t :=
  runLoop_keeps hstep _ (hcyc s n hs) ht

/-- `budget` steps are fuel enough, so a run ends with CYC not positive (R102). -/
theorem execute_cyc_nonpos {n : Int} {s t : State} (ht : execute n s = .next t) : t.cyc ≤ 0 :=
  runLoop_cyc_nonpos _ (Int.self_le_toNat n) ht

/-- A step keeps `State.Inv`, in the form a run's induction takes. -/
theorem State.Inv.step {s t : State} (h : s.Inv) (ht : step s = .next t) : t.Inv := by
  obtain ⟨u, hu, hinv⟩ := stepKeepsTheInvariant s h
  obtain rfl := Host.Outcome.next.inj (hu.symm.trans ht)
  exact hinv

theorem State.Inv.execute {n : Int} {s t : State} (h : s.Inv) (ht : execute n s = .next t) : t.Inv :=
  execute_keeps (P := State.Inv) (fun _ _ => State.Inv.step)
    (fun _ _ hu => ⟨hu.mem_wf, hu.phase_fetching, hu.not_zero_and_negative⟩) h ht

theorem execute_keeps_unwritten {n : Int} {s t : State} (ht : execute n s = .next t) : t.unwritten = s.unwritten :=
  execute_keeps (P := fun u => u.unwritten = s.unwritten) (fun _ _ hu hstep => (step_keeps_unwritten hstep).trans hu)
    (fun _ _ hu => hu) rfl ht

/-- What a host command that answers leaves (R172 to R175): the state itself, the reset state, the end of a run, or the state
with a byte or a word stored. -/
theorem hostCommand_cases {c : HostCommand} {s t : State} {r : HostReply} (h : hostCommand c s = .next (t, r)) :
    t = s ∨ t = State.reset ∨ (∃ n, execute n s = .next t) ∨ (∃ addr v, t = s.writeByte addr v) ∨
      ∃ addr v, t = s.writeWord addr v := by
  cases c with
  | reset => cases h; exact .inr (.inl rfl)
  | execute n =>
    cases hrun : execute n s with
    | next u =>
      obtain ⟨rfl, -⟩ : u = t ∧ HostReply.done = r := by simpa [hostCommand, hrun] using h
      exact .inr (.inr (.inl ⟨n, hrun⟩))
    | fault f => cases f
    | refused f => simp [hostCommand, hrun] at h
  | readByte addr => cases h; exact .inl rfl
  | writeByte addr v => cases h; exact .inr (.inr (.inr (.inl ⟨addr, v, rfl⟩)))
  | readWord addr =>
    by_cases haddr : addr = 0xFFFF
    · rw [hostCommand, if_pos haddr] at h
      cases h
    · rw [hostCommand, if_neg haddr] at h
      cases h
      exact .inl rfl
  | writeWord addr v =>
    by_cases haddr : addr = 0xFFFF
    · rw [hostCommand, if_pos haddr] at h
      cases h
    · rw [hostCommand, if_neg haddr] at h
      cases h
      exact .inr (.inr (.inr (.inr ⟨addr, v, rfl⟩)))
  | snapshot => cases h; exact .inl rfl

/-- The idle shape carries over to a state that meets the invariant, has the same unwritten state and no budget left. -/
theorem State.Idle.of_unwritten {s t : State} (h : s.Idle) (hinv : t.Inv) (hsame : t.unwritten = s.unwritten)
    (hcyc : t.cyc ≤ 0) : t.Idle := by
  obtain ⟨hx, hy, hc, hi, hd, hb, hu, hv⟩ := (s.unwritten_eq_iff t).mp hsame
  exact ⟨hinv, hx.trans h.x_zero, hy.trans h.y_zero, hc.trans h.c_clear, hi.trans h.i_clear, hd.trans h.d_clear,
    hb.trans h.b_clear, hu.trans h.u_clear, hv.trans h.v_clear, hcyc⟩

theorem State.Idle.writeByte {s : State} (h : s.Idle) (addr : Word) (v : Byte) : (s.writeByte addr v).Idle :=
  h.of_unwritten (h.inv.writeByte addr v) rfl h.cyc_nonpos

theorem reset_idle : State.reset.Idle :=
  ⟨resetMeetsTheInvariant, rfl, rfl, rfl, rfl, rfl, rfl, rfl, rfl, Int.le_refl 0⟩

/-- Settles O49, by the cases of what a command leaves: a store keeps the shape, and so does a run, which spends its budget. -/
theorem hostCommandKeepsTheIdleShape : Obligations.HostCommandKeepsTheIdleShape := by
  refine ⟨reset_idle, fun c s t r h hans => ?_⟩
  obtain rfl | rfl | ⟨n, hrun⟩ | ⟨addr, v, rfl⟩ | ⟨addr, v, rfl⟩ := hostCommand_cases hans
  · exact h
  · exact reset_idle
  · exact h.of_unwritten (h.inv.execute hrun) (execute_keeps_unwritten hrun) (execute_cyc_nonpos hrun)
  · exact h.writeByte addr v
  · exact (h.writeByte addr _).writeByte (addr + 1) _

/-- Every state the host can reach is idle (R41, R177). -/
theorem Reachable.idle {s : State} (h : Reachable s) : s.Idle := by
  induction h with
  | reset => exact reset_idle
  | command c s t r _ hans ih => exact hostCommandKeepsTheIdleShape.2 c s t r ih hans

/-- Settles O48: the clauses are the fields of `State.Idle`. -/
theorem reachableIdleStatesShape : Obligations.ReachableIdleStatesShape := by
  intro s hs
  obtain ⟨hinv, hx, hy, hc, hi, hd, hb, hu, hv, hcyc⟩ := hs.idle
  exact ⟨hinv, hx, hy, hc, hi, hd, hb, hu, hv, hcyc⟩

end Sys2Proof.Machine
end

section
/-! PROOFS. What a step reads: no instruction reads A, a flag or the diagnostics; X, Y and SP only where the access table says
(spec/10_state.md R21 to R24, R26, R39, R42). -/

namespace Sys2Proof.Machine

/-- X plays a part in the byte loaded and its cost only in the three forms indexed by X (R131, R114). -/
theorem load_reads_x_only_where_listed {i : Instr} (h : i.opcode ∉ ([0xB5, 0xBD, 0xA1] : List Byte)) (s : State) (v : Byte) :
    loadedByte i { s with x := v } = loadedByte i s ∧ cycleCost i { s with x := v } = cycleCost i s := by
  cases i
  case ldaZpX => simp [Instr.opcode, encode] at h
  case ldaAbsX => simp [Instr.opcode, encode] at h
  case ldaIndX => simp [Instr.opcode, encode] at h
  all_goals exact ⟨rfl, rfl⟩

/-- Y plays a part in the byte loaded and its cost only in the two forms indexed by Y (R131, R114). -/
theorem load_reads_y_only_where_listed {i : Instr} (h : i.opcode ∉ ([0xB9, 0xB1] : List Byte)) (s : State) (v : Byte) :
    loadedByte i { s with y := v } = loadedByte i s ∧ cycleCost i { s with y := v } = cycleCost i s := by
  cases i
  case ldaAbsY => simp [Instr.opcode, encode] at h
  case ldaIndY => simp [Instr.opcode, encode] at h
  all_goals exact ⟨rfl, rfl⟩

/-- The byte loaded depends on X, Y and the memory alone (R131). -/
theorem loadedByte_congr (i : Instr) {s s' : State} (hx : s'.x = s.x) (hy : s'.y = s.y) (hmem : s'.mem = s.mem) :
    loadedByte i s' = loadedByte i s := by
  cases i <;> simp [loadedByte, effectiveAddr, State.pointerAt, State.readByte, hx, hy, hmem]

/-- The cost depends on X, Y and the memory alone (R114). -/
theorem cycleCost_congr (i : Instr) {s s' : State} (hx : s'.x = s.x) (hy : s'.y = s.y) (hmem : s'.mem = s.mem) :
    cycleCost i s' = cycleCost i s := by
  cases i <;> simp [cycleCost, State.pointerAt, State.readByte, hx, hy, hmem]

theorem exec_reads_x_only_where_listed {i : Instr} {s t : State} (ht : exec i s = .next t) (v : Byte)
    (h : i.opcode ∉ ([0xB5, 0xBD, 0xA1] : List Byte)) : exec i { s with x := v } = .next { t with x := v } := by
  obtain ⟨hbyte, hcost⟩ := load_reads_x_only_where_listed h s v
  exact exec_eq_of_same_load (fun t => { t with x := v }) ht hbyte hcost
    (fun _ _ _ _ => rfl) (fun _ _ => rfl) (fun _ _ => rfl)

theorem exec_reads_y_only_where_listed {i : Instr} {s t : State} (ht : exec i s = .next t) (v : Byte)
    (h : i.opcode ∉ ([0xB9, 0xB1] : List Byte)) : exec i { s with y := v } = .next { t with y := v } := by
  obtain ⟨hbyte, hcost⟩ := load_reads_y_only_where_listed h s v
  exact exec_eq_of_same_load (fun t => { t with y := v }) ht hbyte hcost
    (fun _ _ _ _ => rfl) (fun _ _ => rfl) (fun _ _ => rfl)

/-- No load reads SP, so only JSR has to be excluded. -/
theorem exec_reads_sp_only_in_jsr {i : Instr} {s t : State} (ht : exec i s = .next t) (v : Byte) (h : i.opcode ≠ 0x20) :
    exec i { s with sp := v } = .next { t with sp := v } :=
  exec_eq_of_same_load (fun t => { t with sp := v }) ht (loadedByte_congr i rfl rfl rfl) (cycleCost_congr i rfl rfl rfl)
    (fun _ _ _ _ => rfl) (fun _ hi => absurd (by rw [hi]; rfl) h) (fun _ _ => rfl)

/-- Settles O43: the instruction fetched does not depend on X, Y or SP, and its opcode byte says which of them it reads. -/
theorem indexAndStackPointerReadOnlyWhereListed : Obligations.IndexAndStackPointerReadOnlyWhereListed := by
  intro s v
  obtain ⟨t, ht⟩ := step_answers_next s
  rw [← s.fetchedInstr_opcode]
  refine ⟨t, ht, fun h => ?_, fun h => ?_, fun h => ?_⟩
  · exact step_of_same_fetch (exec_reads_x_only_where_listed ht v h) rfl rfl
  · exact step_of_same_fetch (exec_reads_y_only_where_listed ht v h) rfl rfl
  · exact step_of_same_fetch (exec_reads_sp_only_in_jsr ht v h) rfl rfl

/-- A load overwrites A, Z and N whatever they held, and leaves the other six flags as given. -/
theorem exec_lda_ignores_a_and_flags {i : Instr} {s t : State} (ht : exec i s = .next t) (hwf : i.wf = true)
    (hop : i.opcode ∈ ldaOpcodes) (a' : Byte) (f' : Flags) :
    exec i { s with a := a', flags := f' } = .next { t with flags := { f' with z := t.flags.z, n := t.flags.n } } := by
  refine exec_eq_of_same_load (fun t => { t with flags := { f' with z := t.flags.z, n := t.flags.n } }) ht
    (loadedByte_congr i rfl rfl rfl) (cycleCost_congr i rfl rfl rfl) (fun _ _ _ _ => rfl) (fun _ hi => ?_) (fun _ hi => ?_)
  · subst hi
    simp [Instr.opcode, encode, ldaOpcodes] at hop
  · subst hi
    exact absurd hop (not_mem_ldaOpcodes_of_not_implemented (Instr.not_implemented_of_wf hwf))

/-- JSR and the unimplemented opcodes pass A and the flags through. -/
theorem exec_other_passes_a_and_flags {i : Instr} {s t : State} (ht : exec i s = .next t) (hop : i.opcode ∉ ldaOpcodes)
    (a' : Byte) (f' : Flags) : exec i { s with a := a', flags := f' } = .next { t with a := a', flags := f' } :=
  exec_eq_of_same_load (fun t => { t with a := a', flags := f' }) ht
    (loadedByte_congr i rfl rfl rfl) (cycleCost_congr i rfl rfl rfl)
    (fun _ _ _ hv => absurd (opcode_mem_of_loadedByte hv) hop) (fun _ _ => rfl) (fun _ _ => rfl)

/-- Settles O42, by whether the opcode byte is one of the eight LDA forms. -/
theorem accumulatorAndFlagsAreNeverRead : Obligations.AccumulatorAndFlagsAreNeverRead := by
  intro s a' f'
  obtain ⟨t, ht⟩ := step_answers_next s
  rw [← s.fetchedInstr_opcode]
  by_cases hop : s.fetchedInstr.opcode ∈ ldaOpcodes
  · have hu := exec_lda_ignores_a_and_flags ht s.fetchedInstr_wf hop a' f'
    exact ⟨t, _, ht, step_of_same_fetch hu rfl rfl, fun _ => rfl, fun h => absurd hop h⟩
  · have hu := exec_other_passes_a_and_flags ht hop a' f'
    exact ⟨t, _, ht, step_of_same_fetch hu rfl rfl, fun h => absurd h hop, fun _ => rfl⟩

/-- The events an instruction emits from a state: one for an unimplemented opcode, none otherwise (R176, R190). -/
def emittedEvents (i : Instr) (s : State) : List Diagnostic :=
  match i with
  | .unimplemented op => [{ addr := s.pc, op := op }]
  | _ => []

theorem emittedEvents_length_le_one (i : Instr) (s : State) : (emittedEvents i s).length ≤ 1 := by
  cases i <;> simp [emittedEvents]

theorem emittedEvents_of_loadedByte {i : Instr} {s : State} {v : Byte} (h : loadedByte i s = some v) :
    emittedEvents i s = [] := by
  cases i
  case unimplemented => cases h
  all_goals rfl

theorem exec_diag {i : Instr} {s t : State} (ht : exec i s = .next t) : t.diag = s.diag ++ emittedEvents i s := by
  obtain ⟨v, hv, he⟩ | ⟨target, rfl, he⟩ | ⟨op, rfl, he⟩ := exec_cases i s
  all_goals obtain rfl := Host.Outcome.next.inj (he.symm.trans ht)
  · rw [emittedEvents_of_loadedByte hv, List.append_nil]
    rfl
  · exact (List.append_nil _).symm
  · rfl

/-- With any other record before it, an instruction appends the same events and does the same otherwise. -/
theorem exec_ignores_diag {i : Instr} {s t : State} (ht : exec i s = .next t) (d : List Diagnostic) :
    exec i { s with diag := d } = .next { t with diag := d ++ emittedEvents i s } := by
  refine exec_eq_of_same_load (fun t => { t with diag := d ++ emittedEvents i s }) ht
    (loadedByte_congr i rfl rfl rfl) (cycleCost_congr i rfl rfl rfl) (fun v len cost hv => ?_) (fun target hi => ?_)
    (fun op hi => ?_)
  · rw [emittedEvents_of_loadedByte hv, List.append_nil]
    rfl
  · subst hi
    simp only [emittedEvents, List.append_nil]
    rfl
  · subst hi
    rfl

/-- Settles O45: the events are those of the instruction fetched, which does not depend on the record. -/
theorem stepNeverReadsTheDiagnostics : Obligations.StepNeverReadsTheDiagnostics := by
  intro s
  obtain ⟨t, ht⟩ := step_answers_next s
  refine ⟨t, emittedEvents s.fetchedInstr s, ht, emittedEvents_length_le_one _ s, exec_diag ht, fun d => ?_⟩
  exact step_of_same_fetch (exec_ignores_diag ht d) rfl rfl

end Sys2Proof.Machine
end

section
/-! PROOFS. PC, the stack page, the reset command and the snapshot (spec/10_state.md R24, R25, R35, R40). -/

namespace Sys2Proof.Machine

/-- Settles O19: a load passes its own length, an unimplemented opcode one byte, and JSR replaces PC. -/
theorem pcAdvancesByLengthOrJumps : Obligations.PcAdvancesByLengthOrJumps := by
  intro i s
  obtain ⟨v, hv, he⟩ | ⟨target, rfl, he⟩ | ⟨op, rfl, he⟩ := exec_cases i s
  · refine ⟨_, he, .inr ⟨?_, ?_⟩⟩
    · rintro target rfl
      cases hv
    · simp [loadResult, BitVec.toNat_add, BitVec.toNat_ofNat]
  · exact ⟨_, he, .inl ⟨target, rfl, rfl⟩⟩
  · exact ⟨_, he, .inr ⟨by simp, by simp [unimplementedResult, Instr.size, BitVec.toNat_add]⟩⟩

/-- Settles O37: SP is the low byte of a stack cell's address. -/
theorem stackCellsAreThePage : Obligations.StackCellsAreThePage := by
  refine ⟨stackAddr_toNat, fun addr => ⟨?_, fun ⟨hlo, hhi⟩ => ⟨loByte addr, ?_⟩⟩⟩
  · rintro ⟨sp, rfl⟩
    have hsp := sp.isLt
    rw [stackAddr_toNat]
    omega
  · apply BitVec.eq_of_toNat_eq
    rw [stackAddr_toNat, loByte_toNat]
    omega

/-- Settles O1: `State.reset` is the list of values, and its empty memory reads 0x00 everywhere. -/
theorem resetGivesListedValues : Obligations.ResetGivesListedValues := fun _ =>
  ⟨State.reset, rfl, rfl, rfl, rfl, rfl, rfl, rfl, rfl, rfl, rfl, rfl, rfl, rfl, rfl, fun _ => rfl, rfl, rfl, rfl⟩

/-- A flag packed at bit `k` shows at bit `k` and nowhere else. -/
theorem flagBit_getElem (f : Bool) {k j : Nat} (hj : j < 8) : (flagBit f k)[j] = (decide (j = k) && f) := by
  cases f with
  | false => simp [flagBit]
  | true =>
    rw [Bool.eq_iff_iff]
    simp only [flagBit, ↓reduceIte, BitVec.ofNat_eq_ofNat, BitVec.getElem_shiftLeft, BitVec.getElem_one,
      Bool.and_eq_true, Bool.not_eq_eq_eq_not, Bool.not_true, decide_eq_false_iff_not, not_lt, decide_eq_true_eq,
      Bool.and_true]
    omega

/-- Settles O7: the snapshot copies the fields, and each bit of the packed byte comes from one flag. -/
theorem snapshotShowsRegistersAndPackedFlags : Obligations.SnapshotShowsRegistersAndPackedFlags := by
  intro s
  refine ⟨s.snapshot, rfl, rfl, rfl, rfl, rfl, rfl, rfl, rfl, ?_⟩
  simp [State.snapshot, Flags.pack, flagBit_getElem]

end Sys2Proof.Machine
end

section
/-! PROOFS. The host's accesses to memory: the byte and word operations on an idle engine, and which command is refused
(spec/20_memory.md R51 to R57, spec/50_interfaces.md R177). -/

namespace Sys2Proof.Machine

/-! ### What each access answers -/

theorem hostCommand_readByte (s : State) (addr : Word) :
    hostCommand (.readByte addr) s = .next (s, .byte (s.readByte addr)) := rfl

theorem hostCommand_writeByte (s : State) (addr : Word) (v : Byte) :
    hostCommand (.writeByte addr v) s = .next (s.writeByte addr v, .done) := rfl

theorem hostCommand_readWord (s : State) {addr : Word} (h : addr ≠ 0xFFFF) :
    hostCommand (.readWord addr) s = .next (s, .word (s.readWord addr)) := if_neg h

theorem hostCommand_writeWord (s : State) {addr : Word} (v : Word) (h : addr ≠ 0xFFFF) :
    hostCommand (.writeWord addr v) s = .next (s.writeWord addr v, .done) := if_neg h

/-! ### What a word write leaves -/

/-- The two cells of a word are never the same cell, at any address. -/
theorem addr_ne_succ (addr : Word) : addr ≠ addr + 1 := by bv_omega

theorem State.readByte_writeWord_low (s : State) (addr v : Word) : (s.writeWord addr v).readByte addr = loByte v := by
  rw [State.writeWord, State.readByte_writeByte_other _ _ (addr_ne_succ addr), State.readByte_writeByte_same]

theorem State.readByte_writeWord_high (s : State) (addr v : Word) :
    (s.writeWord addr v).readByte (addr + 1) = hiByte v :=
  State.readByte_writeByte_same _ _ _

theorem State.readByte_writeWord_other (s : State) {addr r : Word} (v : Word) (hlow : r ≠ addr) (hhigh : r ≠ addr + 1) :
    (s.writeWord addr v).readByte r = s.readByte r := by
  rw [State.writeWord, State.readByte_writeByte_other _ _ hhigh, State.readByte_writeByte_other _ _ hlow]

theorem State.readWord_writeWord (s : State) (addr v : Word) : (s.writeWord addr v).readWord addr = v := by
  rw [State.readWord, State.readByte_writeWord_high, State.readByte_writeWord_low, joinBytes_hi_lo]

/-! ### A run always answers -/

/-- Every step of a run answers, so the run does (R9, R101). -/
theorem runLoop_answers_next (fuel : Nat) (s : State) : ∃ t, runLoop fuel s = .next t := by
  induction fuel generalizing s with
  | zero => exact ⟨s, rfl⟩
  | succ fuel ih =>
    by_cases hcyc : 0 < s.cyc
    · obtain ⟨u, hu⟩ := step_answers_next s
      rw [runLoop_of_pos fuel hcyc hu]
      exact ih u
    · exact ⟨s, runLoop_of_nonpos _ (by omega)⟩

theorem execute_answers_next (n : Int) (s : State) : ∃ t, execute n s = .next t := runLoop_answers_next _ _

/-! ### The statements -/

/-- Settles O3: a read after a write gives the byte written at its cell and the byte before it at every other cell. -/
theorem hostByteReadAndWrite : Obligations.HostByteReadAndWrite := by
  intro s addr v
  refine ⟨hostCommand_readByte s addr, _, hostCommand_writeByte s addr v, ?_, fun r hr => ?_, rfl⟩
  · rw [hostCommand_readByte, State.readByte_writeByte_same]
  · rw [hostCommand_readByte, State.readByte_writeByte_other s v hr]

/-- Settles O4: the low byte is at `addr` and the high byte at `addr + 1`, and joining the two gives the word back. -/
theorem hostWordIsLittleEndian : Obligations.HostWordIsLittleEndian := by
  intro s addr v haddr
  refine ⟨_, hostCommand_writeWord s v haddr, ?_, ?_, ?_, fun r => State.readByte_writeWord_other s v, rfl⟩
  · rw [hostCommand_readWord _ haddr, State.readWord_writeWord]
  · rw [State.readByte_writeWord_low, loByte_toNat]
  · rw [State.readByte_writeWord_high, hiByte_toNat]

/-- Settles O5, command by command: a word operation is refused or answers by its test on the address, and `execute` answers
because every run does. -/
theorem hostRefusedOnlyAtTopWord : Obligations.HostRefusedOnlyAtTopWord := by
  intro c s
  cases c with
  | reset => exact .inr ⟨⟨_, _, rfl⟩, by simp⟩
  | execute n =>
    obtain ⟨t, ht⟩ := execute_answers_next n s
    exact .inr ⟨⟨t, .done, by rw [hostCommand, ht]⟩, by simp⟩
  | readByte addr => exact .inr ⟨⟨_, _, hostCommand_readByte s addr⟩, by simp⟩
  | writeByte addr v => exact .inr ⟨⟨_, _, hostCommand_writeByte s addr v⟩, by simp⟩
  | readWord addr =>
    by_cases haddr : addr = 0xFFFF
    · subst haddr
      exact .inl ⟨rfl, .inl rfl⟩
    · exact .inr ⟨⟨_, _, hostCommand_readWord s haddr⟩, fun h => haddr (HostCommand.readWord.inj h), by simp⟩
  | writeWord addr v =>
    by_cases haddr : addr = 0xFFFF
    · subst haddr
      exact .inl ⟨rfl, .inr ⟨v, rfl⟩⟩
    · exact .inr ⟨⟨_, _, hostCommand_writeWord s v haddr⟩, by simp, fun _ h => haddr (HostCommand.writeWord.inj h).1⟩
  | snapshot => exact .inr ⟨⟨_, _, rfl⟩, by simp⟩

end Sys2Proof.Machine
end

section
/-! PROOFS. Bytes stored from PC on are fetched as the instruction they decode to (spec/20_memory.md R66,
spec/30_encoding.md R88, R90). -/

namespace Sys2Proof

/-- Three bytes are enough for any instruction, and the bytes past its own length play no part (R86, R88). -/
theorem decode_three_bytes (b0 b1 b2 : Byte) : ∃ rest, decode [b0, b1, b2] = .ok (decodeInstr b0 b1 b2, rest) := by
  cases h : lookupOpcode b0 with
  | none => exact ⟨[b1, b2], by simp [decode, decodeInstr, formatOf, h]⟩
  | some k => cases k <;> simp [decode, decodeInstr, formatOf, h, Opcode.format, Opcode.build]

/-- The instruction of a table word is the decoder's answer on the word's three bytes. -/
theorem decodeTableWord_eq (nbits w : Nat) : decodeTableWord nbits w =
    some (decodeInstr (tableByte nbits w 0) (tableByte nbits w 1) (tableByte nbits w 2)) := by
  obtain ⟨rest, h⟩ := decode_three_bytes (tableByte nbits w 0) (tableByte nbits w 1) (tableByte nbits w 2)
  rw [decodeTableWord, h]

namespace Machine

@[simp] theorem State.withFetchWord_pc (s : State) (nbits w : Nat) : (s.withFetchWord nbits w).pc = s.pc := rfl

/-- Three consecutive cells are distinct, at every PC, the wrap at 0xFFFF included: no store covers another (R90). -/
theorem State.withFetchWord_readByte (s : State) (nbits w : Nat) :
    (s.withFetchWord nbits w).readByte s.pc = tableByte nbits w 0 ∧
    (s.withFetchWord nbits w).readByte (s.pc + 1) = tableByte nbits w 1 ∧
    (s.withFetchWord nbits w).readByte (s.pc + 2) = tableByte nbits w 2 := by
  have h02 : s.pc ≠ s.pc + 2 := by bv_omega
  have h12 : s.pc + 1 ≠ s.pc + 2 := by bv_omega
  unfold State.withFetchWord
  refine ⟨?_, ?_, State.readByte_writeByte_same _ _ _⟩
  · rw [State.readByte_writeByte_other _ _ h02, State.readByte_writeByte_other _ _ (addr_ne_succ s.pc),
      State.readByte_writeByte_same]
  · rw [State.readByte_writeByte_other _ _ h12, State.readByte_writeByte_same]

/-- Settles O16: the three bytes the step fetches are the three bytes stored. -/
theorem storedWordIsTheInstructionFetched : Obligations.StoredWordIsTheInstructionFetched := by
  intro s nbits w i hi
  obtain ⟨h0, h1, h2⟩ := s.withFetchWord_readByte nbits w
  obtain rfl := Option.some.inj ((decodeTableWord_eq nbits w).symm.trans hi)
  rw [step_eq_exec, State.withFetchWord_pc, h0, h1, h2]

end Machine
end Sys2Proof
end

section
/-! PROOFS. The memory port accounts for the cycles and the stores of an instruction (spec/20_memory.md R70,
spec/50_interfaces.md R171). -/

namespace Sys2Proof.Machine

/-! ### Replaying a sequence of port cycles -/

theorem replayPort_append (m : Memory) (p q : List PortCycle) :
    replayPort m (p ++ q) = replayPort (replayPort m p) q := by
  induction p generalizing m with
  | nil => rfl
  | cons c p ih => cases c <;> exact ih _

@[simp] theorem replayPort_portRead (m : Memory) (s : State) (addr : Word) (p : List PortCycle) :
    replayPort m (s.portRead addr :: p) = replayPort m p := rfl

@[simp] theorem replayPort_portFetch2 (m : Memory) (s : State) : replayPort m s.portFetch2 = m := rfl

@[simp] theorem replayPort_portFetch3 (m : Memory) (s : State) : replayPort m s.portFetch3 = m := rfl

@[simp] theorem replayPort_portPointer (m : Memory) (s : State) (z : Byte) : replayPort m (s.portPointer z) = m := rfl

@[simp] theorem replayPort_portCross (m : Memory) (base eff : Word) : replayPort m (portCross base eff) = m := by
  unfold portCross
  split <;> rfl

/-- No load writes through the port (R70). -/
theorem replayPort_of_loadedByte (m : Memory) {i : Instr} {s : State} {v : Byte} (h : loadedByte i s = some v) :
    replayPort m (portCycles i s) = m := by
  cases i
  case jsrAbs => cases h
  case unimplemented => cases h
  all_goals simp [portCycles, replayPort_append, replayPort]

/-! ### The length of the sequence -/

/-- The internal cycle of a page cross is the one the cost table charges (R70, R114). -/
@[simp] theorem portCross_length (base eff : Word) : (portCross base eff).length = crossCost base eff := by
  rw [portCross, pageCross_eq_hiByte, crossCost]
  by_cases h : hiByte base = hiByte eff <;> simp [h]

/-- R70 has as many cycles as R114 charges, row by row. -/
theorem portCycles_length (i : Instr) (s : State) : (portCycles i s).length = cycleCost i s := by
  cases i
  case ldaAbsX => simp [portCycles, cycleCost, State.portFetch3]; omega
  case ldaAbsY => simp [portCycles, cycleCost, State.portFetch3]; omega
  case ldaIndY => simp [portCycles, cycleCost, State.portFetch2, State.portPointer]; omega
  all_goals rfl

/-- Settles O20: the cost is the length of the sequence, and JSR's two pushes are its only writes. -/
theorem portSequenceAccountsForCyclesAndStores : Obligations.PortSequenceAccountsForCyclesAndStores := by
  intro i s
  rw [portCycles_length]
  obtain ⟨v, hv, he⟩ | ⟨target, rfl, he⟩ | ⟨op, rfl, he⟩ := exec_cases i s
  · exact ⟨_, he, rfl, (replayPort_of_loadedByte s.mem hv).symm⟩
  · exact ⟨_, he, rfl, rfl⟩
  · exact ⟨_, he, rfl, rfl⟩

end Sys2Proof.Machine
end

section
/-! PROOFS. The only cells a step can change are those of the stack page (spec/20_memory.md R66). -/

namespace Sys2Proof.Machine

/-- Outside 0x0100 to 0x01FF there is no stack cell (R162). -/
theorem ne_stackAddr_of_outside_page {r : Word} (hr : r.toNat < 0x0100 ∨ 0x01FF < r.toNat) (sp : Byte) :
    r ≠ stackAddr sp := by
  rintro rfl
  have hsp := sp.isLt
  rw [stackAddr_toNat] at hr
  omega

/-- JSR stores in the two cells it pushes to and in no other (R66, R160). -/
theorem jsrResult_readByte_other (target : Word) (s : State) {r : Word} (hhigh : r ≠ stackAddr s.sp)
    (hlow : r ≠ stackAddr (s.sp - 1)) : (jsrResult target s).readByte r = s.readByte r :=
  (State.readByte_writeByte_other _ _ hlow).trans (State.readByte_writeByte_other _ _ hhigh)

/-- Settles O41: a load and an unimplemented opcode store nothing, and the two cells of JSR lie in the stack page. -/
theorem stepStoresOnlyInStackPage : Obligations.StepStoresOnlyInStackPage := by
  intro s
  obtain ⟨-, v, len, cost, -, hs⟩ | ⟨-, target, hs⟩ | ⟨-, hs⟩ := step_cases s
  · exact ⟨_, hs, fun _ _ => rfl⟩
  · exact ⟨_, hs, fun r hr =>
      jsrResult_readByte_other target s (ne_stackAddr_of_outside_page hr _) (ne_stackAddr_of_outside_page hr _)⟩
  · exact ⟨_, hs, fun _ _ => rfl⟩

end Sys2Proof.Machine
end

section
/-! PROOFS. The encoding: the encoder and the decoder undo each other, the decoder is total, and the opcode byte alone decides
the length (spec/30_encoding.md R81 to R89). -/

open Sys2Proof.Machine

namespace Sys2Proof

/-! ### The bytes of an instruction -/

theorem encode_length (i : Instr) : (encode i).length = i.size := by cases i <;> rfl

/-- A row of the dispatch table encodes to its opcode byte and as many of the operand bytes as its format has (R81, R84). -/
theorem encode_build (k : Opcode) (b1 b2 : Byte) :
    encode (k.build b1 b2) = [(k.build b1 b2).opcode, b1, b2].take k.format.length := by
  cases k <;> simp [Opcode.build, Opcode.format, Format.length, Instr.opcode, encode]

/-- The encoding of a decoded instruction is the bytes it was decoded from, cut to the length of the format (R81, R88). -/
theorem encode_decodeInstr (op b1 b2 : Byte) :
    encode (decodeInstr op b1 b2) = [op, b1, b2].take (formatOf op).length := by
  have hop := decodeInstr_opcode op b1 b2
  cases h : lookupOpcode op with
  | none => simp [decodeInstr, formatOf, h, encode, Format.length]
  | some k =>
    simp only [decodeInstr, formatOf, h] at hop ⊢
    rw [encode_build, hop]

theorem decodeInstr_size (op b1 b2 : Byte) : (decodeInstr op b1 b2).size = (formatOf op).length := by
  rw [← encode_length, encode_decodeInstr, List.length_take]
  cases formatOf op <;> rfl

/-- The decoder reaches every well-formed instruction, from its own opcode byte; a word operand stands in the stream low byte
first (R83, R84, R85). -/
theorem exists_decodeInstr_eq_of_wf {i : Instr} (h : i.wf = true) : ∃ b1 b2, decodeInstr i.opcode b1 b2 = i := by
  cases i with
  | ldaImm imm => exact ⟨imm, 0, rfl⟩
  | ldaZp z => exact ⟨z, 0, rfl⟩
  | ldaZpX z => exact ⟨z, 0, rfl⟩
  | ldaAbs abs => exact ⟨loByte abs, hiByte abs, congrArg Instr.ldaAbs (joinBytes_hi_lo abs)⟩
  | ldaAbsX abs => exact ⟨loByte abs, hiByte abs, congrArg Instr.ldaAbsX (joinBytes_hi_lo abs)⟩
  | ldaAbsY abs => exact ⟨loByte abs, hiByte abs, congrArg Instr.ldaAbsY (joinBytes_hi_lo abs)⟩
  | ldaIndX z => exact ⟨z, 0, rfl⟩
  | ldaIndY z => exact ⟨z, 0, rfl⟩
  | jsrAbs target => exact ⟨loByte target, hiByte target, congrArg Instr.jsrAbs (joinBytes_hi_lo target)⟩
  | unimplemented op =>
    have hnone := (lookupOpcode_none_iff op).mpr (Instr.not_implemented_of_wf h)
    exact ⟨0, 0, by simp [Instr.opcode, encode, decodeInstr, hnone]⟩

/-! ### Decoding a byte string -/

/-- The bytes past the length of the format play no part (R86, R88). -/
theorem decode_take_append (op b1 b2 : Byte) (rest : List Byte) :
    decode ([op, b1, b2].take (formatOf op).length ++ rest) = .ok (decodeInstr op b1 b2, rest) := by
  cases h : lookupOpcode op with
  | none => simp [decode, decodeInstr, formatOf, h, Format.length]
  | some k => cases k <;> simp [decode, decodeInstr, formatOf, h, Format.length, Opcode.format, Opcode.build]

/-- Every answer of `decode` is the decoder's on an opcode byte and its operand bytes, and those are the bytes consumed (R81). -/
theorem decode_eq_ok {bytes rest : List Byte} {i : Instr} (h : decode bytes = .ok (i, rest)) :
    ∃ op b1 b2, i = decodeInstr op b1 b2 ∧ bytes = [op, b1, b2].take (formatOf op).length ++ rest := by
  cases bytes with
  | nil => cases h
  | cons op tail =>
    cases hf : formatOf op with
    | F0 =>
      simp only [decode, hf] at h
      cases h
      exact ⟨op, 0, 0, rfl, by rw [hf]; rfl⟩
    | FB =>
      match tail with
      | [] => simp [decode, hf] at h
      | b :: tail =>
        simp only [decode, hf] at h
        cases h
        exact ⟨op, b, 0, rfl, by rw [hf]; rfl⟩
    | FW =>
      match tail with
      | [] => simp [decode, hf] at h
      | [_] => simp [decode, hf] at h
      | lo :: hi :: tail =>
        simp only [decode, hf] at h
        cases h
        exact ⟨op, lo, hi, rfl, by rw [hf]; rfl⟩

/-! ### The opcode space -/

/-- The table has an entry for exactly the nine opcode bytes of R84 (R86). -/
theorem lookupOpcode_ne_none_iff (op : Byte) : lookupOpcode op ≠ none ↔ op ∈ implementedOpcodes := by
  rw [ne_eq, lookupOpcode_none_iff, Bool.not_eq_false, List.contains_iff_mem]

/-- The table has no entry for the other 247 of the 256 opcode bytes (R85, R86). `decide` alone runs out of recursion depth on
a list of 256, so the kernel evaluates the count. -/
theorem unimplemented_count :
    ((List.range 256).filter fun n => (lookupOpcode (BitVec.ofNat 8 n)).isNone).length = 247 := by
  decide +kernel

/-- The length column of R88, byte by byte. -/
theorem formatOf_length (op : Byte) : (formatOf op).length =
    if op ∈ ([0x20, 0xAD, 0xB9, 0xBD] : List Byte) then 3
    else if op ∈ ([0xA1, 0xA5, 0xA9, 0xB1, 0xB5] : List Byte) then 2 else 1 := by
  revert op
  decide

/-! ### The statements -/

/-- Settles O8: a well-formed instruction is the decoder's answer on some three bytes, and its encoding is those of them that
`decode` reads. -/
theorem decodeOfEncode : Obligations.DecodeOfEncode := by
  intro i rest hwf
  obtain ⟨b1, b2, hi⟩ := exists_decodeInstr_eq_of_wf hwf
  rw [← hi, encode_decodeInstr]
  exact decode_take_append _ b1 b2 rest

/-- Settles O9: the bytes consumed are the encoding of what the decoder answers on them. -/
theorem encodeOfDecode : Obligations.EncodeOfDecode := by
  intro bytes rest i h
  obtain ⟨op, b1, b2, rfl, rfl⟩ := decode_eq_ok h
  exact ⟨decodeInstr_wf op b1 b2, by rw [encode_decodeInstr]⟩

/-- Settles O10: three bytes always decode, and by `encodeOfDecode` to a well-formed instruction that takes its own length of
them; the partition of the opcode space is that of the table. -/
theorem decoderIsTotal : Obligations.DecoderIsTotal := by
  refine ⟨fun b0 b1 b2 => ?_, fun op => ?_, unimplemented_count⟩
  · obtain ⟨rest, h⟩ := decode_three_bytes b0 b1 b2
    obtain ⟨hwf, hbytes⟩ := encodeOfDecode _ _ _ h
    have hlen := congrArg List.length hbytes
    rw [List.length_append, encode_length, Nat.add_comm] at hlen
    exact ⟨rest, h, hwf, hlen⟩
  · exact (lookupOpcode_ne_none_iff op).trans (List.Perm.mem_iff (by decide))

/-- Settles O11: the length is that of the format the opcode byte selects, and the fetch reads PC and the cells only. -/
theorem lengthIsDecidedByOpcodeByte : Obligations.LengthIsDecidedByOpcodeByte := by
  refine ⟨fun op b1 b2 => ?_, fun s t hpc hcells => ?_⟩
  · rw [decodeInstr_size, formatOf_length]
  · simp only [State.fetchedInstr_eq, hpc, hcells]

/-- Settles O12: `decodeTableWord` evaluated on each word. -/
theorem sampleWordsDecode : Obligations.SampleWordsDecode :=
  ⟨rfl, rfl, rfl, rfl, rfl, rfl, rfl, rfl, rfl, rfl⟩

end Sys2Proof
end

section
/-! PROOFS. The decode-then-run step is the spec's `Step()` (spec/40_engine_loop.md R105 to R110): each arm of the pseudocode
is the machine's meaning of the operand the stream holds. -/

namespace Sys2Proof.Machine

/-- Settles O15: the machine's one-update forms of the two fetches, the word read low byte first. -/
theorem fetchReadsAtPcAndAdvances : Obligations.FetchReadsAtPcAndAdvances := by
  intro s
  rw [State.fetchWord_eq]
  exact ⟨rfl, joinBytes_toNat _ _, rfl⟩

/-- Settles O13: `decode` on three bytes answers what the step decodes them to. -/
theorem stepRunsDecodedInstruction : Obligations.StepRunsDecodedInstruction := by
  intro s i rest h
  obtain ⟨rest', h'⟩ := decode_three_bytes (s.readByte s.pc) (s.readByte (s.pc + 1)) (s.readByte (s.pc + 2))
  obtain ⟨rfl, -⟩ := Prod.mk.inj (Except.ok.inj (h'.symm.trans h))
  exact step_eq_exec s

/-! ### The resolvers of the pseudocode are the machine's, on the operand fetched at PC -/

theorem Reference.zp_eq (s : State) : Reference.zp s = resolveZp (s.readByte s.pc) s := rfl

theorem Reference.zpX_eq (s : State) : Reference.zpX s = resolveZpX (s.readByte s.pc) s := rfl

theorem Reference.abs_eq (s : State) :
    Reference.abs s = resolveAbs (joinBytes (s.readByte (s.pc + 1)) (s.readByte s.pc)) s := rfl

theorem Reference.absX_eq (s : State) :
    Reference.absX s = resolveAbsX (joinBytes (s.readByte (s.pc + 1)) (s.readByte s.pc)) s := rfl

theorem Reference.absY_eq (s : State) :
    Reference.absY s = resolveAbsY (joinBytes (s.readByte (s.pc + 1)) (s.readByte s.pc)) s := rfl

theorem Reference.indX_eq (s : State) : Reference.indX s = resolveIndX (s.readByte s.pc) s := rfl

theorem Reference.indY_eq (s : State) : Reference.indY s = resolveIndY (s.readByte s.pc) s := rfl

/-! ### The arms of the pseudocode

The machine enters a phase before it resolves the address, where the pseudocode names none until its end (R38, R111). -/

/-- The LDA that reads at the address `resolve` answers ends the same in whatever phase it starts. -/
def IgnoresPhase (resolve : State → Word × State) : Prop :=
  ∀ (s : State) (p : Phase), loadFrom (resolve (s.enter p)) = loadFrom (resolve s)

theorem resolveZp_ignoresPhase (z : Byte) : IgnoresPhase (resolveZp z) := fun _ _ => rfl

theorem resolveZpX_ignoresPhase (z : Byte) : IgnoresPhase (resolveZpX z) := fun s p => by
  rw [resolveZpX_eq, resolveZpX_eq]
  rfl

theorem resolveAbs_ignoresPhase (abs : Word) : IgnoresPhase (resolveAbs abs) := fun s p => by
  rw [resolveAbs_eq, resolveAbs_eq]
  rfl

theorem resolveAbsX_ignoresPhase (abs : Word) : IgnoresPhase (resolveAbsX abs) := fun s p => by
  rw [resolveAbsX_eq, resolveAbsX_eq]
  rfl

theorem resolveAbsY_ignoresPhase (abs : Word) : IgnoresPhase (resolveAbsY abs) := fun s p => by
  rw [resolveAbsY_eq, resolveAbsY_eq]
  rfl

theorem resolveIndX_ignoresPhase (z : Byte) : IgnoresPhase (resolveIndX z) := fun s p => by
  rw [resolveIndX_eq, resolveIndX_eq]
  rfl

theorem resolveIndY_ignoresPhase (z : Byte) : IgnoresPhase (resolveIndY z) := fun s p => by
  rw [resolveIndY_eq, resolveIndY_eq]
  rfl

/-- The instruction `i` ends from `s` as the pseudocode's arm that gives `t` ends (R108, R110). -/
def AgreesWithArm (s : State) (i : Instr) (t : State) : Prop := exec i s = .next (t.enter .fetchingOpcode)

/-- One test of the dispatch, made by the decoder and by the pseudocode alike. -/
theorem AgreesWithArm.ite {s : State} {i j : Instr} {t u : State} (c : Prop) [Decidable c] (ht : AgreesWithArm s i t)
    (hu : AgreesWithArm s j u) : AgreesWithArm s (if c then i else j) (if c then t else u) := by
  split
  · exact ht
  · exact hu

/-- The seven LDA arms with an address (R142 to R148). -/
theorem agreesWithArm_of_ignoresPhase {resolve : State → Word × State} (h : IgnoresPhase resolve) {i : Instr} {s : State}
    (hi : exec i s = .next (loadFrom (resolve s.passOpcode))) :
    AgreesWithArm s i (Reference.loadAt (resolve s.passByte)) :=
  hi.trans (congrArg Host.Outcome.next (h s.passByte .resolvingAddress))

/-- The immediate arm (R141). -/
theorem ldaImm_agreesWithArm (s : State) : AgreesWithArm s (.ldaImm (s.readByte (s.pc + 1)))
    (Reference.load (Reference.imm s.passByte).1 (Reference.imm s.passByte).2) := rfl

/-- The JSR arm (R160). -/
theorem jsrAbs_agreesWithArm (s : State) :
    AgreesWithArm s (.jsrAbs (joinBytes (s.readByte (s.pc + 1 + 1)) (s.readByte (s.pc + 1))))
      (Reference.jsrAbs s.passByte) := by
  simp only [AgreesWithArm, exec, execJsrAbs, Reference.jsrAbs, Reference.abs_eq, resolveAbs_eq, State.push_eq]
  rfl

/-- The arm of every other opcode byte (R190). -/
theorem unimplemented_agreesWithArm (op : Byte) (s : State) :
    AgreesWithArm s (.unimplemented op) (s.passByte.emitUnimplemented s.pc op) := rfl

/-- The decoder and `Dispatch` make the same nine tests on the opcode byte (R84, R108), and the arms agree one by one. -/
theorem decodeInstr_agreesWithArm (op : Byte) (s : State) :
    AgreesWithArm s (decodeInstr op (s.readByte (s.pc + 1)) (s.readByte (s.pc + 2)))
      (Reference.dispatch op s.pc s.passByte) := by
  have hpc : s.pc + 2 = s.pc + 1 + 1 := by bv_omega
  rw [hpc, decodeInstr_eq, Reference.dispatch, Reference.zp_eq, Reference.zpX_eq, Reference.abs_eq, Reference.absX_eq,
    Reference.absY_eq, Reference.indX_eq, Reference.indY_eq]
  refine .ite _ (ldaImm_agreesWithArm s) <| .ite _ ?zp <| .ite _ ?zpX <| .ite _ ?abs <| .ite _ ?absX <| .ite _ ?absY <|
    .ite _ ?indX <| .ite _ ?indY <| .ite _ (jsrAbs_agreesWithArm s) (unimplemented_agreesWithArm op s)
  case zp => exact agreesWithArm_of_ignoresPhase (resolveZp_ignoresPhase _) rfl
  case zpX => exact agreesWithArm_of_ignoresPhase (resolveZpX_ignoresPhase _) rfl
  case abs => exact agreesWithArm_of_ignoresPhase (resolveAbs_ignoresPhase _) rfl
  case absX => exact agreesWithArm_of_ignoresPhase (resolveAbsX_ignoresPhase _) rfl
  case absY => exact agreesWithArm_of_ignoresPhase (resolveAbsY_ignoresPhase _) rfl
  case indX => exact agreesWithArm_of_ignoresPhase (resolveIndX_ignoresPhase _) rfl
  case indY => exact agreesWithArm_of_ignoresPhase (resolveIndY_ignoresPhase _) rfl

/-- Settles O14: what the step decodes, the pseudocode dispatches. -/
theorem stepAgreesWithPseudocode : Obligations.StepAgreesWithPseudocode := by
  intro s
  rw [step_eq_exec]
  exact decodeInstr_agreesWithArm (s.readByte s.pc) s

end Sys2Proof.Machine
end

section
/-! PROOFS. What an instruction charges: the total of the cost table, whatever the counter holds (spec/40_engine_loop.md R107,
R110, R114). -/

namespace Sys2Proof.Machine

theorem crossCost_le_one (base eff : Word) : crossCost base eff ≤ 1 := by
  unfold crossCost
  split <;> decide

/-- The dearest totals of the cost table are six cycles (R114). -/
theorem cycleCost_le_six (i : Instr) (s : State) : cycleCost i s ≤ 6 := by
  cases i with
  | ldaAbsX abs => exact (Nat.add_le_add_left (crossCost_le_one _ _) 4).trans (by decide)
  | ldaAbsY abs => exact (Nat.add_le_add_left (crossCost_le_one _ _) 4).trans (by decide)
  | ldaIndY z => exact Nat.add_le_add_left (crossCost_le_one _ _) 5
  | _ => simp [cycleCost]

theorem exec_cyc {i : Instr} {s t : State} (ht : exec i s = .next t) : t.cyc = s.cyc - (cycleCost i s : Int) := by
  obtain ⟨v, -, he⟩ | ⟨target, rfl, he⟩ | ⟨op, rfl, he⟩ := exec_cases i s
  all_goals
    obtain rfl := Host.Outcome.next.inj (he.symm.trans ht)
    rfl

/-- Settles O18: each kind of result lowers CYC by the table's total, which is 1 to 6. -/
theorem everyInstructionCostsItsTotal : Obligations.EveryInstructionCostsItsTotal := by
  intro i s
  obtain ⟨t, ht⟩ := exec_answers_next i s
  exact ⟨t, ht, exec_cyc ht, one_le_cycleCost i s, cycleCost_le_six i s⟩

/-- Every result takes its cost off whatever the counter holds, so a shift of CYC passes through. -/
theorem exec_shifts_cyc {i : Instr} {s t : State} (ht : exec i s = .next t) (k : Int) :
    exec i { s with cyc := s.cyc + k } = .next { t with cyc := t.cyc + k } := by
  have hshift (u : State) (cost : Int) :
      { u with cyc := s.cyc + k - cost } = ({ u with cyc := s.cyc - cost + k } : State) := by
    rw [add_sub_right_comm]
  exact exec_eq_of_same_load (fun t => { t with cyc := t.cyc + k }) ht
    (loadedByte_congr i rfl rfl rfl) (cycleCost_congr i rfl rfl rfl)
    (fun v len cost _ => hshift (loadResult v len cost s) cost) (fun target _ => hshift (jsrResult target s) 6)
    (fun op _ => hshift (unimplementedResult op s) 1)

theorem step_shifts_cyc {s t : State} (ht : step s = .next t) (k : Int) :
    step { s with cyc := s.cyc + k } = .next { t with cyc := t.cyc + k } :=
  step_of_same_fetch (exec_shifts_cyc ht k) rfl rfl

/-- Settles O44: the instruction fetched does not depend on CYC, and its result shifts with it. -/
theorem stepNeverReadsTheCounter : Obligations.StepNeverReadsTheCounter := by
  intro s k
  obtain ⟨t, ht⟩ := step_answers_next s
  exact ⟨t, ht, step_shifts_cyc ht k⟩

end Sys2Proof.Machine
end

section
/-! PROOFS. The run: where it ends, what it may overdraw, and how it splits (spec/40_engine_loop.md R100 to R104, R109, R113;
spec/70_reset_and_hazards.md R216). -/

namespace Sys2Proof.Machine

/-- Settles O50: the loop's first test fails on the budget loaded. -/
theorem nonPositiveBudgetRunsNothing : Obligations.NonPositiveBudgetRunsNothing :=
  fun n _ hn => runLoop_of_nonpos n.toNat hn

/-- One turn of the loop (R101): it is at its end, or it takes a step and goes on. -/
theorem runLoop_succ_cases {fuel : Nat} {s t : State} (ht : runLoop (fuel + 1) s = .next t) :
    (s.cyc ≤ 0 ∧ t = s) ∨ (0 < s.cyc ∧ ∃ u, step s = .next u ∧ runLoop fuel u = .next t) := by
  by_cases hcyc : 0 < s.cyc
  · obtain ⟨u, hu⟩ := step_answers_next s
    exact .inr ⟨hcyc, u, hu, (runLoop_of_pos fuel hcyc hu).symm.trans ht⟩
  · rw [runLoop_of_nonpos _ (by omega)] at ht
    exact .inl ⟨by omega, (Host.Outcome.next.inj ht).symm⟩

/-! ### The overdraw -/

theorem step_charges_at_most_six {s t : State} (ht : step s = .next t) : s.cyc - 6 ≤ t.cyc := by
  have hcyc := exec_cyc ht
  have hcost := cycleCost_le_six s.fetchedInstr s
  omega

/-- The last step of a run starts with CYC at least 1 (R103). -/
theorem runLoop_cyc_ge_neg_five {fuel : Nat} {s t : State} (hs : -5 ≤ s.cyc) (ht : runLoop fuel s = .next t) :
    -5 ≤ t.cyc := by
  induction fuel generalizing s with
  | zero =>
    obtain rfl := Host.Outcome.next.inj ht
    exact hs
  | succ fuel ih =>
    obtain ⟨-, rfl⟩ | ⟨hpos, u, hu, hrun⟩ := runLoop_succ_cases ht
    · exact hs
    · have hlow := step_charges_at_most_six hu
      exact ih (by omega) hrun

/-- Settles O51: no step overdraws by more than five, and a run ends only when its budget is spent. -/
theorem overdrawIsAtMostFive : Obligations.OverdrawIsAtMostFive := by
  intro n s hn
  obtain ⟨t, ht⟩ := execute_answers_next n s
  have hload : -5 ≤ ({ s with cyc := n } : State).cyc := by
    show -5 ≤ n
    omega
  exact ⟨t, ht, runLoop_cyc_ge_neg_five hload ht, execute_cyc_nonpos ht⟩

/-! ### Where the run ends -/

theorem core_run_succ {s u : State} (hu : step s = .next u) (k : Nat) : core.run (k + 1) s = core.run k u := by
  have hcore : core.step s = .next u := hu
  simp only [Host.Core.run, hcore]

/-- The loop is as many steps as there are boundaries with CYC positive (R101, R102). -/
theorem runLoop_ends_at_first_boundary {fuel : Nat} {s t : State} (ht : runLoop fuel s = .next t) :
    ∃ k, k ≤ fuel ∧ core.run k s = .next t ∧ ∀ j, j < k → ∃ u : State, core.run j s = .next u ∧ 0 < u.cyc := by
  induction fuel generalizing s with
  | zero => exact ⟨0, Nat.le_refl 0, ht, fun j hj => absurd hj j.not_lt_zero⟩
  | succ fuel ih =>
    obtain ⟨-, rfl⟩ | ⟨hpos, u, hu, hrun⟩ := runLoop_succ_cases ht
    · exact ⟨0, Nat.zero_le _, rfl, fun j hj => absurd hj j.not_lt_zero⟩
    · obtain ⟨k, hk, hend, hbefore⟩ := ih hrun
      refine ⟨k + 1, Nat.succ_le_succ hk, (core_run_succ hu k).trans hend, fun j hj => ?_⟩
      cases j with
      | zero => exact ⟨s, rfl, hpos⟩
      | succ j =>
        rw [core_run_succ hu]
        exact hbefore j (Nat.lt_of_succ_lt_succ hj)

/-- Settles O52: the loop stops at the first such boundary, and the budget is fuel enough to reach it. -/
theorem runEndsAtFirstNonPositiveBoundary : Obligations.RunEndsAtFirstNonPositiveBoundary := by
  intro n s
  obtain ⟨t, ht⟩ := execute_answers_next n s
  obtain ⟨k, hk, hend, hbefore⟩ := runLoop_ends_at_first_boundary ht
  exact ⟨k, t, hk, ht, hend, execute_cyc_nonpos ht, hbefore⟩

/-! ### How the run splits -/

/-- Fuel beyond CYC changes nothing: the loop ends by its own test (R109). -/
theorem runLoop_eq_of_enough_fuel {f g : Nat} {s : State} (hf : s.cyc ≤ f) (hg : s.cyc ≤ g) :
    runLoop f s = runLoop g s := by
  induction f generalizing s g with
  | zero => rw [runLoop_of_nonpos _ hf, runLoop_of_nonpos _ hf]
  | succ f ih =>
    by_cases hcyc : 0 < s.cyc
    · obtain ⟨g, rfl⟩ : ∃ g', g = g' + 1 := ⟨g - 1, by omega⟩
      obtain ⟨u, hu⟩ := step_answers_next s
      have hlow := step_lowers_cyc hu
      rw [runLoop_of_pos f hcyc hu, runLoop_of_pos g hcyc hu]
      exact ih (by omega) (by omega)
    · rw [runLoop_of_nonpos _ (by omega), runLoop_of_nonpos _ (by omega)]

/-- A run with a positive budget is its first step, then the run of what that step left of the budget (R101). -/
theorem execute_of_pos {n : Int} {s u : State} (hn : 0 < n) (hu : step { s with cyc := n } = .next u) :
    execute n s = execute u.cyc u := by
  obtain ⟨fuel, hfuel⟩ : ∃ fuel, n.toNat = fuel + 1 := ⟨n.toNat - 1, by omega⟩
  have hlow : u.cyc < n := step_lowers_cyc hu
  calc execute n s = runLoop (fuel + 1) { s with cyc := n } := by rw [execute, hfuel]
    _ = runLoop fuel u := runLoop_of_pos fuel hn hu
    _ = execute u.cyc u := runLoop_eq_of_enough_fuel (by omega) (Int.self_le_toNat _)

/-- With `n` more in the counter the loop takes the same steps, and from its old end runs what is then left (R113). -/
theorem execute_of_runLoop {fuel : Nat} {s t : State} {n : Int} (hn : 0 ≤ n) (ht : runLoop fuel s = .next t) :
    execute (s.cyc + n) s = execute (t.cyc + n) t := by
  induction fuel generalizing s with
  | zero =>
    obtain rfl := Host.Outcome.next.inj ht
    rfl
  | succ fuel ih =>
    obtain ⟨-, rfl⟩ | ⟨hpos, u, hu, hrun⟩ := runLoop_succ_cases ht
    · rfl
    · calc execute (s.cyc + n) s = execute (u.cyc + n) { u with cyc := u.cyc + n } :=
            execute_of_pos (by omega) (step_shifts_cyc hu n)
        _ = execute (t.cyc + n) t := ih hrun

/-- Settles O53: the longer run takes the steps of the first, since no step reads the counter. -/
theorem runSplitsWhenRemainderIsCarried : Obligations.RunSplitsWhenRemainderIsCarried := by
  intro m n s t hn ht
  rw [Int.add_comm n]
  exact execute_of_runLoop (s := { s with cyc := m }) hn ht

/-- The reset state with LDA #0 at PC, an instruction of two cycles, so a budget of one is overdrawn. -/
def loadAtReset : State := State.reset.writeByte Config.resetPc 0xA9

/-- Settles O54: on `loadAtReset` two runs of budget 1 are two instructions, and one run of budget 2 is one. -/
theorem twoRunsMayDifferFromOne : Obligations.TwoRunsMayDifferFromOne :=
  ⟨1, 1, loadAtReset,
    { loadAtReset with pc := 0xFFFE, flags := { Flags.cleared with z := true }, cyc := -1 },
    { loadAtReset with
      pc := 0xFFFF, flags := { Flags.cleared with z := true }, diag := [{ addr := 0xFFFE, op := 0x00 }] },
    { loadAtReset with pc := 0xFFFE, flags := { Flags.cleared with z := true } },
    by decide, by decide, rfl, rfl, rfl, by decide⟩

end Sys2Proof.Machine
end

section
/-! PROOFS. The addressing-mode resolver: what it writes, how an index enters the sums, where the pointer of the indirect modes
comes from, and what the page-cross predicate says (spec/41_addressing_modes.md R120 to R130). -/

namespace Sys2Proof.Machine

/-! ### The sum of an address and an index, and its carry (R124, R125, R127, R128) -/

/-- An 8-bit index is added unsigned, modulo 65536 (D7). -/
theorem addIndex_toNat (base : Word) (index : Byte) :
    (base + zext16 index).toNat = (base.toNat + index.toNat) % 65536 := by
  rw [BitVec.toNat_add, zext16_toNat]

theorem pageCross_iff_high_ne (base eff : Word) : pageCross base eff = true ↔ base.toNat / 256 ≠ eff.toNat / 256 := by
  rw [pageCross_eq_hiByte, bne_iff_ne, ne_eq, ← BitVec.toNat_inj, hiByte_toNat, hiByte_toNat]

/-- An index moves the high byte by at most the carry out of the low byte, so it changes just when that carry is 1; at the top
of memory it changes from 0xFF to 0 (R145). -/
theorem pageCross_addIndex_iff_carry (base : Word) (index : Byte) :
    pageCross base (base + zext16 index) = true ↔ 256 ≤ base.toNat % 256 + index.toNat := by
  have hbase : base.toNat < 65536 := base.isLt
  have hindex : index.toNat < 256 := index.isLt
  rw [pageCross_iff_high_ne, addIndex_toNat]
  omega

/-- An index of 0 makes no carry. -/
theorem pageCross_addIndex_zero (base : Word) : pageCross base (base + zext16 0) = false := by
  have hzero : (0 : Byte).toNat = 0 := rfl
  rw [Bool.eq_false_iff, ne_eq, pageCross_addIndex_iff_carry]
  omega

/-- Settles O32: the predicate compares the high bytes, and an index changes the high byte by its carry. -/
theorem pageCrossIsHighByteChange : Obligations.PageCrossIsHighByteChange :=
  ⟨pageCross_iff_high_ne, pageCross_addIndex_iff_carry, pageCross_addIndex_zero, by decide⟩

/-! ### What a resolver writes (R130) -/

/-- The state after every resolver is the state before it but for PC and CYC. -/
theorem resolvers_write_only_pc_and_cyc (b : Byte) (w : Word) (s : State) {r : State}
    (hr : r ∈ [(resolveImm b s).2, (resolveZp b s).2, (resolveZpX b s).2, (resolveAbs w s).2, (resolveAbsX w s).2,
      (resolveAbsY w s).2, (resolveIndX b s).2, (resolveIndY b s).2]) :
    ∃ pc cyc, r = { s with pc := pc, cyc := cyc } := by
  simp only [List.mem_cons, List.not_mem_nil, or_false] at hr
  obtain rfl | rfl | rfl | rfl | rfl | rfl | rfl | rfl := hr
  · exact ⟨_, _, congrArg Prod.snd (resolveImm_eq b s)⟩
  · exact ⟨_, _, congrArg Prod.snd (resolveZp_eq b s)⟩
  · exact ⟨_, _, congrArg Prod.snd (resolveZpX_eq b s)⟩
  · exact ⟨_, _, congrArg Prod.snd (resolveAbs_eq w s)⟩
  · exact ⟨_, _, congrArg Prod.snd (resolveAbsX_eq w s)⟩
  · exact ⟨_, _, congrArg Prod.snd (resolveAbsY_eq w s)⟩
  · exact ⟨_, _, congrArg Prod.snd (resolveIndX_eq b s)⟩
  · exact ⟨_, _, congrArg Prod.snd (resolveIndY_eq b s)⟩

/-! ### The addresses as unsigned numbers (R121, R122, R124, R125) -/

theorem resolveZp_addr_toNat (z : Byte) (s : State) : (resolveZp z s).1.toNat = z.toNat := zext16_toNat z

/-- The sum stays in page 0 (D4). -/
theorem resolveZpX_addr_toNat (z : Byte) (s : State) :
    (resolveZpX z s).1.toNat = (z.toNat + s.x.toNat) % 256 := by
  rw [resolveZpX_eq, zext16_toNat, BitVec.toNat_add]

theorem resolveAbsX_addr_toNat (abs : Word) (s : State) :
    (resolveAbsX abs s).1.toNat = (abs.toNat + s.x.toNat) % 65536 := by
  rw [resolveAbsX_eq, addIndex_toNat]

theorem resolveAbsY_addr_toNat (abs : Word) (s : State) :
    (resolveAbsY abs s).1.toNat = (abs.toNat + s.y.toNat) % 65536 := by
  rw [resolveAbsY_eq, addIndex_toNat]

/-- Settles O30: putting PC and CYC back gives the state before the resolver, and each sum is read off its address. -/
theorem resolversWriteOnlyPcAndCyc : Obligations.ResolversWriteOnlyPcAndCyc := by
  refine ⟨fun b w s r hr => ?_, fun b w s => ⟨resolveZp_addr_toNat b s, resolveZpX_addr_toNat b s,
    resolveAbsX_addr_toNat w s, resolveAbsY_addr_toNat w s⟩⟩
  obtain ⟨pc, cyc, rfl⟩ := resolvers_write_only_pc_and_cyc b w s hr
  rfl

/-! ### Where the pointer of the indirect modes comes from (R126, R127, R129) -/

/-- The addresses of the two pointer bytes are 8-bit, so both bytes are in page 0 (D5, D6). -/
theorem State.pointerAt_eq_of_same_zero_page {s s' : State}
    (hpage : ∀ k, k < 256 → Memory.read s'.mem k = Memory.read s.mem k) (z : Byte) :
    s'.pointerAt z = s.pointerAt z := by
  have hbyte (b : Byte) : s'.readByte (zext16 b) = s.readByte (zext16 b) :=
    hpage _ ((zext16_toNat b).trans_lt b.isLt)
  rw [State.pointerAt, State.pointerAt, hbyte z, hbyte (z + 1)]

/-- Settles O31: both indirect modes read memory for their pointer only. -/
theorem indirectPointerComesFromZeroPage : Obligations.IndirectPointerComesFromZeroPage := by
  intro s m z hpage
  have hptr (b : Byte) : ({ s with mem := m } : State).pointerAt b = s.pointerAt b :=
    State.pointerAt_eq_of_same_zero_page hpage b
  simp only [resolveIndX_eq, resolveIndY_eq, hptr, and_self]

end Sys2Proof.Machine
end

section
/-! PROOFS. LDA: what every form does, and the whole next state of each (spec/42_lda.md R140 to R148). Each form is
`exec_of_loadedByte` at its own byte, length and cost. -/

namespace Sys2Proof.Machine

/-! ### What the forms share -/

/-- N is bit 7 of the loaded byte, which is set from 128 on (R140). -/
theorem Flags.setZN_n_iff (f : Flags) (v : Byte) : (f.setZN v).n = true ↔ 128 ≤ v.toNat := by
  have hmsb : v.getLsbD 7 = v.msb := (BitVec.msb_eq_getLsbD_last v).symm
  rw [Flags.setZN_n, hmsb, BitVec.msb_eq_decide, decide_eq_true_iff]

/-- Z is set for the byte 0 alone (R140). -/
theorem Flags.setZN_z_iff (f : Flags) (v : Byte) : (f.setZN v).z = true ↔ v = 0x00 := by
  rw [Flags.setZN_z, beq_iff_eq]

/-- A load overwrites A, so the state after it is the same whatever A held. -/
theorem exec_load_ignores_a {i : Instr} {s : State} {v : Byte} (h : loadedByte i s = some v) (old : Byte) :
    exec i { s with a := old } = .next (loadResult v i.size (cycleCost i s) s) := by
  have hbyte : loadedByte i { s with a := old } = some v := (loadedByte_congr i rfl rfl rfl).trans h
  have hcost : cycleCost i { s with a := old } = cycleCost i s := cycleCost_congr i rfl rfl rfl
  rw [exec_of_loadedByte hbyte, hcost]
  rfl

/-- An indexed mode with total `k` costs one cycle more on a carry out of the low byte (R114, R145, R148). -/
theorem add_crossCost_addIndex (k : Nat) (base : Word) (index : Byte) :
    ((k + crossCost base (base + zext16 index) : Nat) : Int) =
      if 256 ≤ base.toNat % 256 + index.toNat then (k : Int) + 1 else (k : Int) := by
  rw [Nat.cast_add, crossCost_eq_pageCross]
  simp only [pageCross_addIndex_iff_carry]
  split
  · rfl
  · exact add_zero _

/-- A load whose cost holds the page cross of `base` and an index: one cycle more on the carry (R145, R146, R148). -/
theorem exec_indexedLoad {i : Instr} {s : State} {v : Byte} {k : Nat} {base : Word} {index : Byte}
    (h : loadedByte i s = some v) (hcost : cycleCost i s = k + crossCost base (base + zext16 index)) :
    exec i s = .next { s with
      a := v, flags := s.flags.setZN v, pc := s.pc + BitVec.ofNat 16 i.size
      cyc := s.cyc - if 256 ≤ base.toNat % 256 + index.toNat then (k : Int) + 1 else (k : Int)
      phase := .fetchingOpcode } := by
  rw [exec_of_loadedByte h, hcost, ← add_crossCost_addIndex]
  rfl

theorem State.pointerAt_of_bytes {s : State} {z lo hi : Byte} (hlo : s.readByte (zext16 z) = lo)
    (hhi : s.readByte (zext16 (z + 1)) = hi) : s.pointerAt z = joinBytes hi lo := by
  rw [State.pointerAt, hlo, hhi]

/-- The carry out of a pointer's low byte is decided by that byte alone (R148). -/
theorem joinBytes_toNat_mod (hi lo : Byte) : (joinBytes hi lo).toNat % 256 = lo.toNat := by
  rw [← loByte_toNat, loByte_joinBytes]

/-- A step at an opcode byte of the dispatch table runs that row on the bytes after it (R83, R84, R108). -/
theorem step_of_opcode {s : State} {op : Byte} (hop : s.readByte s.pc = op) {k : Opcode} (hk : lookupOpcode op = some k) :
    step s = exec (k.build (s.readByte (s.pc + 1)) (s.readByte (s.pc + 2))) s := by
  rw [step_eq_exec, hop, decodeInstr, hk]

/-! ### The obligations -/

/-- Settles O21: the next state is `loadResult`, whose flags are those of SetZN. -/
theorem everyLdaLoadsAndSetsZN : Obligations.EveryLdaLoadsAndSetsZN := by
  intro i s v h
  refine ⟨_, exec_of_loadedByte h, rfl, s.flags.setZN_z_iff v, s.flags.setZN_n_iff v, s.flags.setZN_not_both v, ?_⟩
  exact ⟨rfl, rfl, rfl, rfl, rfl, rfl, rfl, rfl, rfl, rfl, fun _ => rfl, exec_load_ignores_a h⟩

/-- Settles O26: an indexed load at base `abs`, index X and total 4. -/
theorem ldaAbsoluteXResult : Obligations.LdaAbsoluteXResult := fun _ =>
  ⟨fun abs _ hv => exec_indexedLoad (i := .ldaAbsX abs) (congrArg some hv) rfl,
    fun hop => step_of_opcode hop (k := .ldaAbsX) rfl⟩

/-- Settles O27: an indexed load at base `abs`, index Y and total 4. -/
theorem ldaAbsoluteYResult : Obligations.LdaAbsoluteYResult := fun _ =>
  ⟨fun abs _ hv => exec_indexedLoad (i := .ldaAbsY abs) (congrArg some hv) rfl,
    fun hop => step_of_opcode hop (k := .ldaAbsY) rfl⟩

/-- Settles O29: an indexed load at the pointer, index Y and total 5; the carry is that of the pointer's low byte. -/
theorem ldaIndirectYResult : Obligations.LdaIndirectYResult := by
  refine fun s => ⟨fun z lo hi v hlo hhi hv => ?_, fun hop => step_of_opcode hop (k := .ldaIndY) rfl⟩
  have hptr : s.pointerAt z = joinBytes hi lo := State.pointerAt_of_bytes hlo hhi
  have hbyte : loadedByte (.ldaIndY z) s = some v := by
    rw [← hv, ← hptr]
    rfl
  have he := exec_indexedLoad hbyte rfl
  rw [hptr, joinBytes_toNat_mod] at he
  exact he

/-- Settles O22: the byte loaded is the operand. -/
theorem ldaImmediateResult : Obligations.LdaImmediateResult := fun _ =>
  ⟨fun imm => exec_of_loadedByte (i := .ldaImm imm) rfl, fun hop => step_of_opcode hop (k := .ldaImm) rfl⟩

/-- Settles O23: the byte loaded is the cell at the operand. -/
theorem ldaZeroPageResult : Obligations.LdaZeroPageResult := fun _ =>
  ⟨fun z _ hv => exec_of_loadedByte (i := .ldaZp z) (congrArg some hv),
    fun hop => step_of_opcode hop (k := .ldaZp) rfl⟩

/-- Settles O24: the byte loaded is the cell at the 8-bit sum. -/
theorem ldaZeroPageXResult : Obligations.LdaZeroPageXResult := fun _ =>
  ⟨fun z _ hv => exec_of_loadedByte (i := .ldaZpX z) (congrArg some hv),
    fun hop => step_of_opcode hop (k := .ldaZpX) rfl⟩

/-- Settles O25: the byte loaded is the cell at the operand word. -/
theorem ldaAbsoluteResult : Obligations.LdaAbsoluteResult := fun _ =>
  ⟨fun abs _ hv => exec_of_loadedByte (i := .ldaAbs abs) (congrArg some hv),
    fun hop => step_of_opcode hop (k := .ldaAbs) rfl⟩

/-- Settles O28: the byte loaded is the cell at the pointer found at the 8-bit sum. -/
theorem ldaIndirectXResult : Obligations.LdaIndirectXResult := by
  refine fun s => ⟨fun z lo hi v hlo hhi hv => ?_, fun hop => step_of_opcode hop (k := .ldaIndX) rfl⟩
  have hptr : s.pointerAt (z + s.x) = joinBytes hi lo := State.pointerAt_of_bytes hlo hhi
  have hbyte : loadedByte (.ldaIndX z) s = some v := by
    rw [← hv, ← hptr]
    rfl
  exact exec_of_loadedByte hbyte

end Sys2Proof.Machine
end

section
/-! PROOFS. JSR: the two cells it stores, the word they hold and the jump (spec/43_jsr.md R160 to R163). -/

namespace Sys2Proof.Machine

/-! ### What JSR leaves in the stack page -/

theorem exec_jsrAbs (target : Word) (s : State) : exec (.jsrAbs target) s = .next (jsrResult target s) :=
  exec_jsrAbs_eq target s

/-- The first push, at the cell SP designates; the second push goes to another cell and does not overwrite it. -/
theorem jsrResult_readByte_first (target : Word) (s : State) :
    (jsrResult target s).readByte (stackAddr s.sp) = hiByte (s.pc + 2) :=
  (State.readByte_writeByte_other _ _ (stackAddr_ne_pred s.sp)).trans (State.readByte_writeByte_same _ _ _)

/-- The second push, at the cell the lowered SP designates. -/
theorem jsrResult_readByte_second (target : Word) (s : State) :
    (jsrResult target s).readByte (stackAddr (s.sp - 1)) = loByte (s.pc + 2) :=
  State.readByte_writeByte_same _ _ _

/-- Unless SP wraps between the pushes, the first cell is the one above the second. -/
theorem stackAddr_pred_add_one {sp : Byte} (h : sp ≠ 0x00) : stackAddr (sp - 1) + 1 = stackAddr sp := by
  apply BitVec.eq_of_toNat_eq
  rw [BitVec.toNat_add, stackAddr_toNat, stackAddr_toNat]
  bv_omega

/-- The lower cell is the one above the SP that JSR leaves (R163). -/
theorem jsrResult_sp_add_one (target : Word) (s : State) : (jsrResult target s).sp + 1 = s.sp - 1 := by
  change s.sp - 2 + 1 = s.sp - 1
  bv_omega

/-- The two pushed bytes are a little-endian word, high byte in the upper cell (R160). -/
theorem jsrResult_readWord (target : Word) {s : State} (h : s.sp ≠ 0x00) :
    (jsrResult target s).readWord (stackAddr ((jsrResult target s).sp + 1)) = s.pc + 2 := by
  rw [jsrResult_sp_add_one, State.readWord, stackAddr_pred_add_one h, jsrResult_readByte_first,
    jsrResult_readByte_second, joinBytes_hi_lo]

/-! ### The obligations -/

/-- Settles O33: the two pushed bytes are read back, and the other cells and fields are those of `jsrResult`. -/
theorem jsrPushesReturnAddressAndJumps : Obligations.JsrPushesReturnAddressAndJumps := fun s target =>
  ⟨_, exec_jsrAbs target s, rfl, rfl, rfl, jsrResult_readByte_first target s, jsrResult_readByte_second target s,
    fun _ => jsrResult_readByte_other target s, rfl, rfl, rfl, rfl, rfl, rfl⟩

/-- Settles O35: the word above the new SP is the opcode's address + 2, and JSR is 3 bytes long. -/
theorem jsrReturnWordIsLittleEndian : Obligations.JsrReturnWordIsLittleEndian := by
  intro s target hsp
  have hword := jsrResult_readWord target hsp
  refine ⟨_, exec_jsrAbs target s, hword, ?_⟩
  rw [hword]
  exact BitVec.add_assoc s.pc 2 1

/-- Settles O36: 0x0100 is the cell of SP = 0x00, and 0x01FF that of 0x00 - 1 = 0xFF. -/
theorem jsrWrapsStackPointer : Obligations.JsrWrapsStackPointer := by
  intro s target hsp
  have hfirst := jsrResult_readByte_first target s
  have hsecond := jsrResult_readByte_second target s
  rw [hsp] at hfirst hsecond
  exact ⟨_, exec_jsrAbs target s, congrArg (· - 2) hsp, hfirst, hsecond⟩

/-- Settles O34: the dispatch table's row 0x20 builds JSR of the word after the opcode, and JSR's next PC is that word. -/
theorem jsrOpcodeTakesTheWordAfterIt : Obligations.JsrOpcodeTakesTheWordAfterIt := by
  intro s hop
  have hstep := step_of_opcode hop (k := .jsrAbs) rfl
  exact ⟨_, hstep.trans (exec_jsrAbs _ s), joinBytes_toNat _ _⟩

end Sys2Proof.Machine
end

section
/-! PROOFS. What the host's commands may change, and the events of a run (spec/50_interfaces.md R174 to R176,
spec/40_engine_loop.md R109). -/

namespace Sys2Proof.Machine

/-! ### What a command but reset and execute leaves (R174, R175) -/

/-- A command that answers is no word operation at 0xFFFF: those are refused (R55). -/
theorem not_topWord_of_answers {c : HostCommand} {s t : State} {r : HostReply} (h : hostCommand c s = .next (t, r)) :
    c ≠ .readWord 0xFFFF ∧ ∀ v, c ≠ .writeWord 0xFFFF v := by
  obtain ⟨hrefused, -⟩ | ⟨-, htop⟩ := hostRefusedOnlyAtTopWord c s
  · cases hrefused.symm.trans h
  · exact htop

/-- The reads and the snapshot leave the state, and a write leaves everything but the memory. -/
theorem hostCommand_writes_only_memory {c : HostCommand} {s t : State} {r : HostReply} (hreset : c ≠ .reset)
    (hexecute : ∀ n, c ≠ .execute n) (h : hostCommand c s = .next (t, r)) : { t with mem := s.mem } = s := by
  obtain ⟨hread, hwrite⟩ := not_topWord_of_answers h
  cases c with
  | reset => exact absurd rfl hreset
  | execute n => exact absurd rfl (hexecute n)
  | readByte addr => cases (hostCommand_readByte s addr).symm.trans h; rfl
  | writeByte addr v => cases (hostCommand_writeByte s addr v).symm.trans h; rfl
  | readWord addr =>
    have haddr : addr ≠ 0xFFFF := fun e => hread (congrArg HostCommand.readWord e)
    cases (hostCommand_readWord s haddr).symm.trans h
    rfl
  | writeWord addr v =>
    have haddr : addr ≠ 0xFFFF := fun e => hwrite v (congrArg (HostCommand.writeWord · v) e)
    cases (hostCommand_writeWord s v haddr).symm.trans h
    rfl
  | snapshot => cases h; rfl

/-- Settles O6: the frame of the commands left, and the equation of each command that only reads. -/
theorem hostCannotWriteRegisters : Obligations.HostCannotWriteRegisters :=
  ⟨fun _ _ _ _ => hostCommand_writes_only_memory, hostCommand_readByte, fun s _ => hostCommand_readWord s, fun _ => rfl⟩

/-! ### The events of a run (R176) -/

/-- The events of the loop are those of its steps in order, and whether it goes on does not depend on the record. -/
theorem runLoop_appends_events (fuel : Nat) (s : State) :
    ∃ t new, runLoop fuel s = .next t ∧ new.length ≤ fuel ∧ t.diag = s.diag ++ new ∧
      ∀ d, runLoop fuel { s with diag := d } = .next { t with diag := d ++ new } := by
  induction fuel generalizing s with
  | zero => exact ⟨s, [], rfl, Nat.le_refl 0, (List.append_nil _).symm, fun d => by rw [List.append_nil]; rfl⟩
  | succ fuel ih =>
    by_cases hcyc : 0 < s.cyc
    · obtain ⟨u, first, hu, hfirst, hudiag, hustep⟩ := stepNeverReadsTheDiagnostics s
      obtain ⟨t, rest, ht, hrest, htdiag, htrun⟩ := ih u
      refine ⟨t, first ++ rest, (runLoop_of_pos fuel hcyc hu).trans ht, ?_, ?_, fun d => ?_⟩
      · rw [List.length_append]
        omega
      · rw [htdiag, hudiag, List.append_assoc]
      · rw [runLoop_of_pos (s := { s with diag := d }) fuel hcyc (hustep d), ← List.append_assoc]
        exact htrun (d ++ first)
    · have hend : s.cyc ≤ 0 := Int.not_lt.mp hcyc
      refine ⟨s, [], runLoop_of_nonpos _ hend, Nat.zero_le _, (List.append_nil _).symm, fun d => ?_⟩
      rw [List.append_nil]
      exact runLoop_of_nonpos _ hend

/-- Settles O56: a run is the loop with the budget as fuel, and loading CYC leaves the record. -/
theorem runAppendsItsEvents : Obligations.RunAppendsItsEvents :=
  fun n s => runLoop_appends_events n.toNat { s with cyc := n }

end Sys2Proof.Machine
end

section
/-! PROOFS. The one exceptional event: when a step emits it and what it leaves, and a budget of one instruction
(spec/60_exceptions.md R190, R193, R201, R203). -/

namespace Sys2Proof.Machine

/-- A step at an opcode byte outside the table reports it and does nothing else (R108, R190). -/
theorem step_of_not_implemented {s : State} (h : implementedOpcodes.contains (s.readByte s.pc) = false) :
    step s = .next (unimplementedResult (s.readByte s.pc) s) := by
  rw [step_eq_exec, decodeInstr, (lookupOpcode_none_iff _).mpr h]
  exact exec_unimplemented_eq _ s

/-- The event an unimplemented opcode emits is seen: no such instruction is clean (R190, R203). -/
theorem unimplementedResult_not_clean (op : Byte) (s : State) : ¬ cleanRun s (unimplementedResult op s) :=
  fun hclean => List.cons_ne_nil _ [] (List.append_right_eq_self.mp hclean)

/-- Settles O39, by whether the opcode byte at PC is one of the nine: if it is, the step keeps the diagnostics, and if not,
it appends the one event. -/
theorem stepIsCleanIffImplemented : Obligations.StepIsCleanIffImplemented := by
  intro s
  cases himpl : implementedOpcodes.contains (s.readByte s.pc) with
  | true =>
    obtain ⟨t, ht⟩ := step_answers_next s
    have hclean : cleanRun s t := step_keeps_diag ht himpl
    exact ⟨t, ht, iff_of_true hclean rfl, fun hnot => absurd hclean hnot⟩
  | false =>
    have hevent := unimplementedResult_not_clean (s.readByte s.pc) s
    exact ⟨_, step_of_not_implemented himpl, iff_of_false hevent Bool.false_ne_true, fun _ => rfl⟩

/-- Settles O55: the first step lowers CYC below 1, so what it leaves of the budget runs nothing more. -/
theorem budgetOneRunsOneInstruction : Obligations.BudgetOneRunsOneInstruction := by
  intro s
  obtain ⟨t, ht⟩ := step_answers_next { s with cyc := 1 }
  have hspent : t.cyc ≤ 0 := Int.lt_add_one_iff.mp (step_lowers_cyc ht)
  calc execute 1 s = execute t.cyc t := execute_of_pos Int.one_pos ht
    _ = .next t := nonPositiveBudgetRunsNothing t.cyc t hspent
    _ = step { s with cyc := 1 } := ht.symm

/-- Settles O38: the equation of the catch-all meaning, and the step that dispatches to it; the statement lists the nine
opcode bytes in the order of the table R84. -/
theorem unimplementedOpcodeResult : Obligations.UnimplementedOpcodeResult := by
  refine ⟨exec_unimplemented_eq, fun s hop => step_of_not_implemented ?_⟩
  have hnot : s.readByte s.pc ∉ implementedOpcodes := mt (List.Perm.mem_iff (by decide)).mp hop
  exact Bool.eq_false_iff.mpr (mt List.contains_iff_mem.mp hnot)

end Sys2Proof.Machine
end

section
/-! PROOFS. The reset command answers one state, whatever the state before (spec/70_reset_and_hazards.md R210, R213). -/

namespace Sys2Proof.Machine

/-- Every piece of state is written with a constant (R210). -/
theorem hostCommand_reset (s : State) : hostCommand .reset s = .next (State.reset, .done) := rfl

/-- Settles O2: a second reset is a reset from `State.reset`. -/
theorem resetIsIdempotent : Obligations.ResetIsIdempotent :=
  ⟨hostCommand_reset, fun s => ⟨State.reset, hostCommand_reset s, hostCommand_reset State.reset⟩⟩

end Sys2Proof.Machine
end
